-- ==== Sys2Proof/Word.lean ====
section
/-! DEFINITION. The machine's word and register index, and the conversion from an exact integer to a word
(spec/00_scope.md R8, R9; R7 XLEN, NREGS). -/

namespace Sys2Proof

/-- A register, a memory word, a stack entry and an instruction are 32-bit patterns (R7 `XLEN`, R9).
`s(v)` of the spec is `BitVec.toInt v`, `u(v)` is `BitVec.toNat v`. -/
abbrev Word := BitVec 32

/-- A general register's index, 0 .. 15 (R7 `NREGS`, R21: no index outside this range can be named). -/
abbrev Reg := Fin 16

/-- `trunc32(n)`: the pattern whose unsigned value is `n mod 2^32`, for any integer `n` (R9). -/
def trunc32 (n : Int) : Word := BitVec.ofInt 32 n

end Sys2Proof
end

