-- ==== Sys2Proof/Syntax.lean ====
section
/-! DEFINITION. The instructions of the CW_Arch ISA as syntax: the 21 mnemonics, the five formats, and one
constructor of `Instr` per row of spec/opcode_table.json (spec/30_encoding.md R80 to R88). -/

namespace Sys2Proof

/-- The 21 mnemonics, in the order of the opcode map (R88). `.fill` is a directive and no instruction (R2, R105). -/
inductive Mnemonic where
  | add | mul | div | imul | xidiv | and | xor | nand | cmpge
  | lw | sw | beq | jarl | jmae | jmnae | jne | halt | bsr | bsf | push | pop
  deriving DecidableEq, Repr

/-- All mnemonics, each once. -/
def Mnemonic.all : List Mnemonic :=
  [.add, .mul, .div, .imul, .xidiv, .and, .xor, .nand, .cmpge, .lw, .sw, .beq, .jarl,
   .jmae, .jmnae, .jne, .halt, .bsr, .bsf, .push, .pop]

/-- The five formats: which fields of the word an instruction uses (R83). -/
inductive Format where
  /-- three registers -/
  | RRR
  /-- two registers and a signed offset -/
  | RRO
  /-- a signed offset only -/
  | O
  /-- two registers -/
  | RR
  /-- no operand field is used -/
  | Z
  deriving DecidableEq, Repr

/-- The format of each mnemonic (R83, R88). -/
def Mnemonic.format : Mnemonic → Format
  | .add | .mul | .div | .imul | .xidiv | .and | .xor | .nand | .cmpge => .RRR
  | .lw | .sw | .beq | .jmae | .jmnae => .RRO
  | .jne => .O
  | .jarl | .bsr | .bsf => .RR
  | .halt | .push | .pop => .Z

/-- An instruction with the fields its format uses: registers `a`, `b`, `c` of the fields A, B, C, and `off`, the
signed number of words `s(off)` of the offset field (R84 to R86). Ignored fields are no part of it (R87). -/
inductive Instr where
  | add (a b c : Reg)
  | mul (a b c : Reg)
  | div (a b c : Reg)
  | imul (a b c : Reg)
  | xidiv (a b c : Reg)
  | and (a b c : Reg)
  | xor (a b c : Reg)
  | nand (a b c : Reg)
  | cmpge (a b c : Reg)
  | lw (a b : Reg) (off : Int)
  | sw (a b : Reg) (off : Int)
  | beq (a b : Reg) (off : Int)
  | jarl (a b : Reg)
  | jmae (a b : Reg) (off : Int)
  | jmnae (a b : Reg) (off : Int)
  | jne (off : Int)
  | halt
  | bsr (a b : Reg)
  | bsf (a b : Reg)
  | push
  | pop
  deriving DecidableEq, Repr

/-- The mnemonic of an instruction. -/
def Instr.mnemonic : Instr → Mnemonic
  | .add _ _ _ => .add
  | .mul _ _ _ => .mul
  | .div _ _ _ => .div
  | .imul _ _ _ => .imul
  | .xidiv _ _ _ => .xidiv
  | .and _ _ _ => .and
  | .xor _ _ _ => .xor
  | .nand _ _ _ => .nand
  | .cmpge _ _ _ => .cmpge
  | .lw _ _ _ => .lw
  | .sw _ _ _ => .sw
  | .beq _ _ _ => .beq
  | .jarl _ _ => .jarl
  | .jmae _ _ _ => .jmae
  | .jmnae _ _ _ => .jmnae
  | .jne _ => .jne
  | .halt => .halt
  | .bsr _ _ => .bsr
  | .bsf _ _ => .bsf
  | .push => .push
  | .pop => .pop

end Sys2Proof
end

