-- ==== Sys2Proof/Config.lean ====
section
/-! DEFINITION. The parameters of the core (spec/00_scope.md R7; spec/92_eei_decisions.md "Parameters left open or
configurable"). The ones the spec leaves open or lets a model keep open are fields of `Config`; the ones the source or
a decision fixes are constants. -/

namespace Sys2Proof

/-- The map `OPC` from mnemonic to 5-bit opcode number, one field a mnemonic (R7, R88; D1: any injective map is a
conforming one). -/
structure OpcMap where
  add : BitVec 5
  mul : BitVec 5
  div : BitVec 5
  imul : BitVec 5
  xidiv : BitVec 5
  and : BitVec 5
  xor : BitVec 5
  nand : BitVec 5
  cmpge : BitVec 5
  lw : BitVec 5
  sw : BitVec 5
  beq : BitVec 5
  jarl : BitVec 5
  jmae : BitVec 5
  jmnae : BitVec 5
  jne : BitVec 5
  halt : BitVec 5
  bsr : BitVec 5
  bsf : BitVec 5
  push : BitVec 5
  pop : BitVec 5
  deriving DecidableEq, Repr

/-- `OPC(m)`. -/
def OpcMap.code (o : OpcMap) : Mnemonic → BitVec 5
  | .add => o.add
  | .mul => o.mul
  | .div => o.div
  | .imul => o.imul
  | .xidiv => o.xidiv
  | .and => o.and
  | .xor => o.xor
  | .nand => o.nand
  | .cmpge => o.cmpge
  | .lw => o.lw
  | .sw => o.sw
  | .beq => o.beq
  | .jarl => o.jarl
  | .jmae => o.jmae
  | .jmnae => o.jmnae
  | .jne => o.jne
  | .halt => o.halt
  | .bsr => o.bsr
  | .bsf => o.bsf
  | .push => o.push
  | .pop => o.pop

/-- The numbering of R88 (decision D1), the one spec/opcode_table.json uses. -/
def OpcMap.listing : OpcMap where
  add := 0
  mul := 1
  div := 2
  imul := 3
  xidiv := 4
  and := 5
  xor := 6
  nand := 7
  cmpge := 8
  lw := 9
  sw := 10
  beq := 11
  jarl := 12
  jmae := 13
  jmnae := 14
  jne := 15
  halt := 16
  bsr := 17
  bsf := 18
  push := 19
  pop := 20

/-- `JARL_EQ`: what the comparison of `jarl` compares (D11, R164). -/
inductive JarlEq where
  /-- the registers' contents: the spec's reading -/
  | value
  /-- the register numbers: the other reading the spec records -/
  | index
  deriving DecidableEq, Repr

/-- `XIDIV_OVF`: what `xidiv` of `-2^31` by `-1` does (D8, R128). -/
inductive XidivOvf where
  /-- it raises `DivideError`: the spec's decision -/
  | fault
  /-- the quotient wraps to `-2^31`: the alternative the spec records -/
  | wrap
  deriving DecidableEq, Repr

/-- The parameters a model may keep open (spec/92_eei_decisions.md D1, D3, D5, D8, D11). -/
structure Config where
  /-- `MEM_WORDS`, the number of memory words: OPEN (R7, R51, D3) -/
  memWords : Nat
  /-- `OPC` (R88, D1) -/
  opc : OpcMap
  /-- `JARL_EQ` (D11) -/
  jarlEq : JarlEq
  /-- `CMP_SIGNED`: `cmpge`, `jmae`, `jmnae` compare signed values (D5) -/
  cmpSigned : Bool
  /-- `XIDIV_OVF` (D8) -/
  xidivOvf : XidivOvf
  deriving DecidableEq, Repr

/-- The defaults of the parameter table of spec/92_eei_decisions.md. -/
def Config.default : Config where
  memWords := 16384
  opc := .listing
  jarlEq := .value
  cmpSigned := true
  xidivOvf := .fault

/-- `MEM_FILL`: what a memory word the program file does not cover holds until it is written (R7, R38, D4). -/
def Config.memFill : Word := 0

/-- `STACK_CAP`, the capacity of the hardware stack in words (R7, R29). -/
def Config.stackCap : Nat := 32

/-- `STACK_REG`, the register `push` reads and `pop` writes (R7, R24, D25). -/
def Config.stackReg : Reg := 1

end Sys2Proof
end

