-- ==== Sys2Proof/WellFormed.lean ====
section
/-! DEFINITION. Well-formed instructions (the offset lies in the 15-bit field) and legal configurations. -/

namespace Sys2Proof

/-- An offset the 15-bit two's-complement field can hold (spec/30_encoding.md R85, R104). -/
def offsetInRange (off : Int) : Bool := decide (-16384 ≤ off) && decide (off ≤ 16383)

/-- An instruction that some word encodes: its offset, if it has one, is in range. Register indices are in range by
their type (R21, R84). -/
def Instr.wellFormed : Instr → Bool
  | .add _ _ _ => true
  | .mul _ _ _ => true
  | .div _ _ _ => true
  | .imul _ _ _ => true
  | .xidiv _ _ _ => true
  | .and _ _ _ => true
  | .xor _ _ _ => true
  | .nand _ _ _ => true
  | .cmpge _ _ _ => true
  | .lw _ _ off => offsetInRange off
  | .sw _ _ off => offsetInRange off
  | .beq _ _ off => offsetInRange off
  | .jarl _ _ => true
  | .jmae _ _ off => offsetInRange off
  | .jmnae _ _ off => offsetInRange off
  | .jne off => offsetInRange off
  | .halt => true
  | .bsr _ _ => true
  | .bsf _ _ => true
  | .push => true
  | .pop => true

/-- No two mnemonics have one opcode (R88, D1: `OPC` is injective). -/
def OpcMap.injective (o : OpcMap) : Bool := decide (Mnemonic.all.map o.code).Nodup

/-- `1 <= MEM_WORDS <= 2^31 - 2^15` (spec/00_scope.md R7, D26). -/
def Config.memWordsLegal (c : Config) : Bool := decide (1 ≤ c.memWords) && decide (c.memWords ≤ 2 ^ 31 - 2 ^ 15)

/-- A configuration the spec admits. -/
def Config.legal (c : Config) : Bool := c.memWordsLegal && c.opc.injective

end Sys2Proof
end

