-- ==== Sys2Proof/Decode.lean ====
section
/-! DEFINITION. The decoder (spec/30_encoding.md R81 to R91, R96), total on all 32-bit words, and after it the encoder
(R92). -/

namespace Sys2Proof

/-- Why a fetched word is no instruction; both are the fault `MalformedOpcode` of the step (R96, R206). -/
inductive DecodeError where
  /-- `w[31:28]` is not 0 (R82) -/
  | reservedBits (bits : BitVec 4)
  /-- `w[27:23]` is the opcode of no mnemonic (R89) -/
  | unassignedOpcode (op : BitVec 5)
  deriving DecidableEq, Repr

/-- `w[31:28]`, which must be 0 (R82). -/
def fieldTop (w : Word) : BitVec 4 := w.extractLsb' 28 4

/-- `w[27:23]`, the opcode (R81). -/
def fieldOp (w : Word) : BitVec 5 := w.extractLsb' 23 5

/-- `A = w[22:19]` (R84). -/
def fieldA (w : Word) : Reg := (w.extractLsb' 19 4).toFin

/-- `B = w[18:15]` (R84). -/
def fieldB (w : Word) : Reg := (w.extractLsb' 15 4).toFin

/-- `C = w[3:0]` (R86); `w[14:4]` is not read. -/
def fieldC (w : Word) : Reg := (w.extractLsb' 0 4).toFin

/-- `sext_32(f)` (R9, R85). -/
def sext32 (f : BitVec 15) : Word := f.signExtend 32

/-- `s(off)` for `off = sext_32(w[14:0])` (R85). -/
def fieldOff (w : Word) : Int := (sext32 (w.extractLsb' 0 15)).toInt

/-- The mnemonic whose opcode is `op`, if there is one (R88, R96). -/
def OpcMap.lookup (o : OpcMap) (op : BitVec 5) : Option Mnemonic :=
  Mnemonic.all.find? (fun m => o.code m == op)

/-- The instruction of mnemonic `m` with the fields its format uses, out of all the decoded fields (R83, R96). -/
def Instr.ofFields (m : Mnemonic) (a b c : Reg) (off : Int) : Instr :=
  match m with
  | .add => .add a b c
  | .mul => .mul a b c
  | .div => .div a b c
  | .imul => .imul a b c
  | .xidiv => .xidiv a b c
  | .and => .and a b c
  | .xor => .xor a b c
  | .nand => .nand a b c
  | .cmpge => .cmpge a b c
  | .lw => .lw a b off
  | .sw => .sw a b off
  | .beq => .beq a b off
  | .jarl => .jarl a b
  | .jmae => .jmae a b off
  | .jmnae => .jmnae a b off
  | .jne => .jne off
  | .halt => .halt
  | .bsr => .bsr a b
  | .bsf => .bsf a b
  | .push => .push
  | .pop => .pop

/-- `Decode(w)` under the opcode map `o` (R96). -/
def decode (o : OpcMap) (w : Word) : Except DecodeError Instr :=
  if fieldTop w ≠ 0#4 then .error (.reservedBits (fieldTop w))
  else
    match o.lookup (fieldOp w) with
    | none => .error (.unassignedOpcode (fieldOp w))
    | some m => .ok (.ofFields m (fieldA w) (fieldB w) (fieldC w) (fieldOff w))

/-- A table word of `nbits` bits as the one 32-bit word of an instruction (R80), the bits from `nbits` on being 0. -/
def tableWord (nbits w : Nat) : Word := BitVec.ofNat 32 (w % 2 ^ nbits)

/-- What `decode` reads from a word of spec/opcode_table.json, numbered as the table numbers its bits, under the
table's own opcode numbers (D1). An instruction is one word of 32 bits (R80): nothing longer is one. -/
def decodeTableWord (nbits w : Nat) : Option Instr :=
  if nbits ≤ 32 then
    match decode .listing (tableWord nbits w) with
    | .ok i => some i
    | .error _ => none
  else none

/-! ## The encoder -/

/-- A register index as a 4-bit field. -/
def regField (r : Reg) : BitVec 4 := BitVec.ofFin r

/-- `off mod 2^15` (R92, R104). -/
def offField (off : Int) : BitVec 15 := BitVec.ofInt 15 off

/-- `(op << 23) | (A << 19) | (B << 15) | F` (R92). -/
def encodeFields (op : BitVec 5) (a b : Reg) (f : BitVec 15) : Word :=
  (op.setWidth 32 <<< 23) ||| ((regField a).setWidth 32 <<< 19) ||| ((regField b).setWidth 32 <<< 15) ||| f.setWidth 32

/-- The field value `F` of an `RRR` word: the register index `C` (R92). -/
def regF (c : Reg) : BitVec 15 := (regField c).setWidth 15

/-- `Encode` under the opcode map `o`; unused fields are 0 (R92). -/
def encode (o : OpcMap) : Instr → Word
  | .add a b c => encodeFields o.add a b (regF c)
  | .mul a b c => encodeFields o.mul a b (regF c)
  | .div a b c => encodeFields o.div a b (regF c)
  | .imul a b c => encodeFields o.imul a b (regF c)
  | .xidiv a b c => encodeFields o.xidiv a b (regF c)
  | .and a b c => encodeFields o.and a b (regF c)
  | .xor a b c => encodeFields o.xor a b (regF c)
  | .nand a b c => encodeFields o.nand a b (regF c)
  | .cmpge a b c => encodeFields o.cmpge a b (regF c)
  | .lw a b off => encodeFields o.lw a b (offField off)
  | .sw a b off => encodeFields o.sw a b (offField off)
  | .beq a b off => encodeFields o.beq a b (offField off)
  | .jarl a b => encodeFields o.jarl a b 0
  | .jmae a b off => encodeFields o.jmae a b (offField off)
  | .jmnae a b off => encodeFields o.jmnae a b (offField off)
  | .jne off => encodeFields o.jne 0 0 (offField off)
  | .halt => encodeFields o.halt 0 0 0
  | .bsr a b => encodeFields o.bsr a b 0
  | .bsf a b => encodeFields o.bsf a b 0
  | .push => encodeFields o.push 0 0 0
  | .pop => encodeFields o.pop 0 0 0

end Sys2Proof
end

