-- ==== Sys2Proof/Machine/State.lean ====
section
/-! DEFINITION. The state of the core and its memory (spec/10_state.md R20, R38), its reset, and the reasons a step can
stop. Plain data throughout. -/

namespace Sys2Proof.Machine

/-- `STATUS` (R31). -/
inductive Status where
  | running
  | halted
  | faulted
  deriving DecidableEq, Repr

/-- `FAULT_CAUSE` (R32, spec/60_exceptions.md R201). -/
inductive FaultCause where
  /-- no fault has occurred: code 0 -/
  | noFault
  | divideError
  | memOutOfBounds
  | stackOverflow
  | stackUnderflow
  | malformedOpcode
  deriving DecidableEq, Repr

/-- `MEM` as plain data: (word address, word) pairs, addresses strictly rising, none holding what an unlisted word
reads as (`Config.memFill`). The word is the smallest addressable unit (spec/20_memory.md R51, R55). -/
abbrev Memory := List (Nat × Word)

/-- The whole state (R20). -/
structure State where
  /-- the parameters of the core; no instruction reads them as values and none writes them (R40) -/
  cfg : Config
  /-- `x[0]` .. `x[15]` (R21) -/
  regs : Vector Word 16
  /-- `pc`: the word address of the instruction being executed, read as `s(pc)` (R25) -/
  pc : Word
  /-- `FLAG` (R28) -/
  flag : Bool
  /-- the occupied stack entries, top first: `STK[SP-1]`, …, `STK[0]` (R29, R37) -/
  stack : List Word
  /-- `STATUS` (R31) -/
  status : Status
  /-- `FAULT_CAUSE` (R32) -/
  faultCause : FaultCause
  /-- `FAULT_INFO` (R32) -/
  faultInfo : Word
  /-- `ICOUNT`: completed instructions (R33) -/
  icount : Nat
  /-- `MEM` (R34) -/
  mem : Memory
  deriving DecidableEq, Repr

/-- Why a step has no next state. The machine's own faults (R201) are next states with `STATUS = FAULTED`, as R208
describes their entry; these are the states from which there is no step at all (R16, R31, D24). -/
inductive Fault where
  /-- `step`, when `STATUS` is `HALTED`: the run has ended with `halt`. Safe: nothing is claimed of any later state. -/
  | halted
  /-- `step`, when `STATUS` is `FAULTED`: the run has ended with a fault. Safe: nothing is claimed of any later state. -/
  | faulted
  deriving DecidableEq, Repr

/-- Why the model gives an instruction no meaning. -/
inductive Refusal where
  /-- `exec`, for an instruction the model has not reached; no arm uses it now. Safe. -/
  | notModelled (mnemonic : String)
  deriving DecidableEq, Repr

/-- The state after reset under the configuration `c`, no program loaded (R38, spec/70_reset_and_hazards.md R240). -/
def State.resetWith (c : Config) : State where
  cfg := c
  regs := Vector.replicate 16 0
  pc := 0
  flag := false
  stack := []
  status := .running
  faultCause := .noFault
  faultInfo := 0
  icount := 0
  mem := []

/-- The state after reset under the default parameters (R38, R240). -/
def State.reset : State := State.resetWith .default

end Sys2Proof.Machine
end

