-- ==== Sys2Proof/Machine/Ops.lean ====
section
/-! DEFINITION. The named operations over registers, memory, the stack and the program counter, and taking a fault
(spec/00_scope.md R10 to R13, spec/20_memory.md R52, R53, spec/60_exceptions.md R208). -/

namespace Sys2Proof.Machine

/-- The outcome of an operation of this machine. -/
abbrev Result := Host.Outcome State Fault Refusal

/-! ## Registers (R10, R21, R22: none is hard-wired) -/

/-- `x[i]`. -/
def State.reg (s : State) (r : Reg) : Word := s.regs[r]

/-- `x[i] <- v`. -/
def State.setReg (s : State) (r : Reg) (v : Word) : State := { s with regs := s.regs.set r v }

/-- Exchange of the current contents of two registers (R128, D10): `t <- x[A]; x[A] <- x[B]; x[B] <- t`. -/
def State.exchange (s : State) (a b : Reg) : State := (s.setReg a (s.reg b)).setReg b (s.reg a)

/-! ## Memory (R34, R50 to R54) -/

/-- `MEM[a]` for an address that exists; a word that is not listed holds `MEM_FILL` (R54, D4). -/
def Memory.read : Memory → Nat → Word
  | [], _ => Config.memFill
  | (k, v) :: m, a => if a = k then v else Memory.read m a

/-- The memory without its entry for `a`. -/
def Memory.erase : Memory → Nat → Memory
  | [], _ => []
  | (k, v) :: m, a => if a = k then Memory.erase m a else (k, v) :: Memory.erase m a

/-- The memory with the entry `(a, v)`, in its place. -/
def Memory.insert : Memory → Nat → Word → Memory
  | [], a, v => [(a, v)]
  | (k, w) :: m, a, v =>
    if a < k then (a, v) :: (k, w) :: m
    else if a = k then (a, v) :: m
    else (k, w) :: Memory.insert m a v

/-- `MEM[a] <- v`, in canonical form: a word that holds `MEM_FILL` is not listed. -/
def Memory.write (m : Memory) (a : Nat) (v : Word) : Memory :=
  if v = Config.memFill then m.erase a else m.insert a v

/-- Addresses rise strictly from `lo` on and no entry holds `MEM_FILL`. -/
def Memory.wfFrom : Nat → Memory → Bool
  | _, [] => true
  | lo, (k, v) :: m => decide (lo ≤ k) && decide (v ≠ Config.memFill) && Memory.wfFrom (k + 1) m

/-- The canonical form of a memory. -/
def Memory.wf (m : Memory) : Bool := Memory.wfFrom 0 m

/-- `MEM` as a whole becomes `m`. -/
def State.setMem (s : State) (m : Memory) : State := { s with mem := m }

/-- `0 <= a < MEM_WORDS` (R51): the address names a word. -/
def State.inMemory (s : State) (a : Int) : Bool := decide (0 ≤ a) && decide (a < s.cfg.memWords)

/-- `MemRead(a, 1)` (R52): nothing for an address that does not exist. -/
def State.memRead (s : State) (a : Int) : Option Word :=
  if s.inMemory a then some (s.mem.read a.toNat) else none

/-- `MemWrite(a, 1, v)` (R53): nothing for an address that does not exist. -/
def State.memWrite (s : State) (a : Int) (v : Word) : Option State :=
  if s.inMemory a then some (s.setMem (s.mem.write a.toNat v)) else none

/-! ## The hardware stack (R12, R29, R30) -/

/-- `SP`: the number of occupied entries (R30). -/
def State.sp (s : State) : Nat := s.stack.length

/-- `STK[k]` for an occupied entry, `k < SP`; the others can never be read (R29). -/
def State.stk (s : State) (k : Nat) : Option Word := s.stack.reverse[k]?

/-- The occupied stack entries become `l`. -/
def State.setStack (s : State) (l : List Word) : State := { s with stack := l }

/-- `StkPush(v)`: nothing when the stack is full. -/
def State.stkPush (s : State) (v : Word) : Option State :=
  if Config.stackCap ≤ s.sp then none else some (s.setStack (v :: s.stack))

/-- `StkPop()`: the top entry and the state without it; nothing when the stack is empty. -/
def State.stkPop (s : State) : Option (Word × State) :=
  match s.stack with
  | [] => none
  | v :: rest => some (v, s.setStack rest)

/-! ## The program counter (R25 to R27, D26) -/

/-- `pc <- pc + 1`. -/
def State.advance (s : State) : State := { s with pc := trunc32 (s.pc.toInt + 1) }

/-- `pc <- t`. -/
def State.jump (s : State) (t : Word) : State := { s with pc := t }

/-! ## The flag and the run status -/

/-- `FLAG <- b`. -/
def State.setFlag (s : State) (b : Bool) : State := { s with flag := b }

/-- `STATUS <- st`. -/
def State.setStatus (s : State) (st : Status) : State := { s with status := st }

/-! ## Taking a fault (R13, R201, R208). There is no return from one (R210). -/

/-- The cause code of R201. -/
def FaultCause.code : FaultCause → BitVec 3
  | .noFault => 0
  | .divideError => 1
  | .memOutOfBounds => 2
  | .stackOverflow => 3
  | .stackUnderflow => 4
  | .malformedOpcode => 5

/-- `raise F(info)` (R208): `STATUS`, `FAULT_CAUSE` and `FAULT_INFO` are written and nothing else is. -/
def State.raise (s : State) (c : FaultCause) (info : Word) : State :=
  { s with status := .faulted, faultCause := c, faultInfo := info }

/-- `ICOUNT <- ICOUNT + 1` (R15, R33). -/
def State.tick (s : State) : State := { s with icount := s.icount + 1 }

/-- The count at the end of a step: a faulting instruction is not counted (R13, R15, R33). -/
def State.count (s : State) : State := if s.status = .faulted then s else s.tick

/-- The end of a step: the executed instruction's next state, counted (R15). -/
def retire : Result → Result
  | .next s => .next s.count
  | .fault r => .fault r
  | .refused r => .refused r

end Sys2Proof.Machine
end

