-- ==== Sys2Proof/Machine/Flags.lean ====
section
/-! DEFINITION. The conditions and the flag: the signed comparison of `cmpge`, `jmae`, `jmnae`, and the bit scans that
alone write `FLAG` (spec/10_state.md R28, spec/40_arith_logic_compare.md R129, spec/43_bitscan_stack.md R180, R181). No
arithmetic instruction has a flag (R130). -/

namespace Sys2Proof.Machine

/-- `x >= y`: of the signed values, which is the spec's reading (R129, D5), or of the unsigned values where the
parameter `CMP_SIGNED` is false. -/
def greaterEq (c : Config) (x y : Word) : Bool :=
  if c.cmpSigned then decide (y.toInt ≤ x.toInt) else decide (y.toNat ≤ x.toNat)

/-- The least `j` in 0..31 with `v[31 - j] = 1`, if `v` is not 0 (R180). -/
def scanFromTop (v : Word) : Option Nat := (List.range 32).find? (fun j => v.getLsbD (31 - j))

/-- The least `j` in 0..31 with `v[j] = 1`, if `v` is not 0 (R181). -/
def scanFromBottom (v : Word) : Option Nat := (List.range 32).find? (fun j => v.getLsbD j)

/-- The register result of a bit scan: the index found, or -1 (R180, R181). -/
def scanResult : Option Nat → Word
  | some k => BitVec.ofNat 32 k
  | none => trunc32 (-1)

/-- The flag after a bit scan: set when a 1 bit was found (R28). -/
def scanFlag (found : Option Nat) : Bool := found.isSome

end Sys2Proof.Machine
end

