-- ==== Sys2Proof/Machine/Operands.lean ====
section
/-! DEFINITION. The operand forms: effective addresses, branch targets, the link value, and writing the result of a
register-to-register operation (spec/20_memory.md R59, spec/42_control.md R164, R166, spec/40_arith_logic_compare.md
R120). -/

namespace Sys2Proof.Machine

/-- `ea = s(x[A]) + s(off)`, a mathematical integer (R59, R152). -/
def State.ea (s : State) (a : Reg) (off : Int) : Int := (s.reg a).toInt + off

/-- The target of a taken branch, `pc + off + 1` (R166). -/
def State.branchTarget (s : State) (off : Int) : Word := trunc32 (s.pc.toInt + off + 1)

/-- The address of the next instruction, `trunc32(pc + 1)`: the link value of `jarl` (R164). -/
def State.nextPc (s : State) : Word := trunc32 (s.pc.toInt + 1)

/-- A conditional relative branch (R160 to R163). -/
def State.branchIf (s : State) (taken : Bool) (off : Int) : State :=
  if taken then s.jump (s.branchTarget off) else s.advance

/-- A three-register operation: both sources are read, then `x[C]` is written, then `pc` advances (R120). -/
def State.writeResult (s : State) (f : Word → Word → Word) (a b c : Reg) : State :=
  (s.setReg c (f (s.reg a) (s.reg b))).advance

end Sys2Proof.Machine
end

