-- ==== Sys2Proof/Machine/Arith.lean ====
section
/-! DEFINITION. The arithmetic, bitwise and compare instructions (spec/40_arith_logic_compare.md). -/

namespace Sys2Proof.Machine

/-! ## The integer arithmetic (R121 to R131) -/

/-- The wrapping sum (R121). -/
def sum32 (x y : Word) : Word := trunc32 (x.toInt + y.toInt)

/-- The low word of the 64-bit unsigned product (R125). -/
def mulLow (x y : Word) : Word := (x.setWidth 64 * y.setWidth 64).extractLsb' 0 32

/-- The floor of the unsigned quotient (R126); the divisor is not 0. -/
def divU (x y : Word) : Word := (x.setWidth 64 / y.setWidth 64).extractLsb' 0 32

/-- The low word of the signed product (R127). -/
def imulLow (x y : Word) : Word := trunc32 (x.toInt * y.toInt)

/-- The signed quotient truncated toward zero, `sign(a) * sign(b) * floor(|a| / |b|)` (R128, D7). -/
def quotTowardZero (a b : Int) : Int := a.sign * b.sign * ((a.natAbs / b.natAbs : Nat) : Int)

/-- The quotient `xidiv` writes (R128). -/
def divS (x y : Word) : Word := trunc32 (quotTowardZero x.toInt y.toInt)

/-- Whether `xidiv` raises `DivideError` on this dividend and divisor (R128, R202); the second case is decision D8, under the
parameter `XIDIV_OVF`. -/
def divSFaults (c : Config) (x y : Word) : Bool :=
  decide (y.toInt = 0) || (decide (x.toInt = -2 ^ 31) && decide (y.toInt = -1) && decide (c.xidivOvf = .fault))

/-! ## The instructions -/

/-- `add` (R121). -/
def execAdd (a b c : Reg) (s : State) : Result := .next (s.writeResult sum32 a b c)

/-- `nand` (R122). -/
def execNand (a b c : Reg) (s : State) : Result := .next (s.writeResult (fun x y => ~~~(x &&& y)) a b c)

/-- `and` (R123). -/
def execAnd (a b c : Reg) (s : State) : Result := .next (s.writeResult (fun x y => x &&& y) a b c)

/-- `xor` (R124). -/
def execXor (a b c : Reg) (s : State) : Result := .next (s.writeResult (fun x y => x ^^^ y) a b c)

/-- `mul` (R125). -/
def execMul (a b c : Reg) (s : State) : Result := .next (s.writeResult mulLow a b c)

/-- `div` (R126): a zero divisor is found before any write. -/
def execDiv (a b c : Reg) (s : State) : Result :=
  if (s.reg b).toNat = 0 then .next (s.raise .divideError s.pc)
  else .next (s.writeResult divU a b c)

/-- `imul` (R127). -/
def execImul (a b c : Reg) (s : State) : Result := .next (s.writeResult imulLow a b c)

/-- `xidiv` (R128): both faults are found before any write; the exchange follows the write of `x[C]` and reads the registers
as they then are (D10). -/
def execXidiv (a b c : Reg) (s : State) : Result :=
  if divSFaults s.cfg (s.reg a) (s.reg b) then .next (s.raise .divideError s.pc)
  else .next ((s.setReg c (divS (s.reg a) (s.reg b))).exchange a b).advance

/-- `cmpge` (R129). -/
def execCmpge (a b c : Reg) (s : State) : Result :=
  .next (s.writeResult (fun x y => if greaterEq s.cfg x y then 1 else 0) a b c)

end Sys2Proof.Machine
end

