-- ==== Sys2Proof/Machine/BitStack.lean ====
section
/-! DEFINITION. The bit-scan and stack instructions (spec/43_bitscan_stack.md). -/

namespace Sys2Proof.Machine

/-- A bit scan: the scanned register is read, then `x[B]` and `FLAG` are written (R180, R181). -/
def State.writeScan (s : State) (scan : Word → Option Nat) (a b : Reg) : State :=
  ((s.setReg b (scanResult (scan (s.reg a)))).setFlag (scanFlag (scan (s.reg a)))).advance

/-- `bsr` (R180): the index counts from the most significant bit. -/
def execBsr (a b : Reg) (s : State) : Result := .next (s.writeScan scanFromTop a b)

/-- `bsf` (R181): the index counts from the least significant bit (conflict C2). -/
def execBsf (a b : Reg) (s : State) : Result := .next (s.writeScan scanFromBottom a b)

/-- `push` (R182): always the register `STACK_REG`. -/
def execPush (s : State) : Result :=
  match s.stkPush (s.reg Config.stackReg) with
  | none => .next (s.raise .stackOverflow s.pc)
  | some t => .next t.advance

/-- `pop` (R183). -/
def execPop (s : State) : Result :=
  match s.stkPop with
  | none => .next (s.raise .stackUnderflow s.pc)
  | some (v, t) => .next (t.setReg Config.stackReg v).advance

end Sys2Proof.Machine
end

