-- ==== Sys2Proof/Machine/Control.lean ====
section
/-! DEFINITION. The control-transfer instructions and `halt` (spec/42_control.md). A target is not checked here: a bad one
faults at the next fetch (R166). -/

namespace Sys2Proof.Machine

/-- `beq` (R160). -/
def execBeq (a b : Reg) (off : Int) (s : State) : Result :=
  .next (s.branchIf (decide (s.reg a = s.reg b)) off)

/-- `jmae` (R161). -/
def execJmae (a b : Reg) (off : Int) (s : State) : Result :=
  .next (s.branchIf (greaterEq s.cfg (s.reg a) (s.reg b)) off)

/-- `jmnae` (R162): the complement of `jmae`. -/
def execJmnae (a b : Reg) (off : Int) (s : State) : Result :=
  .next (s.branchIf (!greaterEq s.cfg (s.reg a) (s.reg b)) off)

/-- `jne` (R163): it tests the flag and leaves it as it is (D12). -/
def execJne (off : Int) (s : State) : Result := .next (s.branchIf s.flag off)

/-- The comparison of `jarl`, under the parameter `JARL_EQ` (R164, D11). -/
def jarlEqual (s : State) (a b : Reg) : Bool :=
  match s.cfg.jarlEq with
  | .value => decide (s.reg a = s.reg b)
  | .index => decide (a = b)

/-- `jarl` (R164): the target is the value `x[A]` had before the instruction. -/
def execJarl (a b : Reg) (s : State) : Result :=
  if jarlEqual s a b then .next (s.setReg a s.nextPc).advance
  else .next ((s.setReg b s.nextPc).jump (s.reg a))

/-- `halt` (R165): `pc` advances and the core stops. -/
def execHalt (s : State) : Result := .next (s.advance.setStatus .halted)

end Sys2Proof.Machine
end

