-- ==== Sys2Proof/Machine/LoadStore.lean ====
section
/-! DEFINITION. The load and store instructions (spec/41_load_store.md). -/

namespace Sys2Proof.Machine

/-- `lw` (R150): the address is computed from the old `x[A]`; an address outside memory is found before any write. -/
def execLw (a b : Reg) (off : Int) (s : State) : Result :=
  match s.memRead (s.ea a off) with
  | none => .next (s.raise .memOutOfBounds (trunc32 (s.ea a off)))
  | some v => .next (s.setReg b v).advance

/-- `sw` (R151): `x[B]` is the data, `x[A]` the base. -/
def execSw (a b : Reg) (off : Int) (s : State) : Result :=
  match s.memWrite (s.ea a off) (s.reg b) with
  | none => .next (s.raise .memOutOfBounds (trunc32 (s.ea a off)))
  | some t => .next t.advance

end Sys2Proof.Machine
end

