-- ==== Sys2Proof/Machine/Dispatch.lean ====
section
/-! DEFINITION. The execute stage: one arm per instruction, each a direct call of its meaning. -/

namespace Sys2Proof.Machine

/-- Executes one instruction (spec/00_scope.md R15: "execute the rule of instr"). -/
def exec (i : Instr) (s : State) : Host.Outcome State Fault Refusal :=
  match i with
  -- arithmetic, bitwise, compare
  | .add a b c => Sys2Proof.Machine.execAdd a b c s
  | .mul a b c => Sys2Proof.Machine.execMul a b c s
  | .div a b c => Sys2Proof.Machine.execDiv a b c s
  | .imul a b c => Sys2Proof.Machine.execImul a b c s
  | .xidiv a b c => Sys2Proof.Machine.execXidiv a b c s
  | .and a b c => Sys2Proof.Machine.execAnd a b c s
  | .xor a b c => Sys2Proof.Machine.execXor a b c s
  | .nand a b c => Sys2Proof.Machine.execNand a b c s
  | .cmpge a b c => Sys2Proof.Machine.execCmpge a b c s
  -- load and store
  | .lw a b off => Sys2Proof.Machine.execLw a b off s
  | .sw a b off => Sys2Proof.Machine.execSw a b off s
  -- control
  | .beq a b off => Sys2Proof.Machine.execBeq a b off s
  | .jarl a b => Sys2Proof.Machine.execJarl a b s
  | .jmae a b off => Sys2Proof.Machine.execJmae a b off s
  | .jmnae a b off => Sys2Proof.Machine.execJmnae a b off s
  | .jne off => Sys2Proof.Machine.execJne off s
  | .halt => Sys2Proof.Machine.execHalt s
  -- bit-scan and stack
  | .bsr a b => Sys2Proof.Machine.execBsr a b s
  | .bsf a b => Sys2Proof.Machine.execBsf a b s
  | .push => Sys2Proof.Machine.execPush s
  | .pop => Sys2Proof.Machine.execPop s

end Sys2Proof.Machine
end

