-- ==== Sys2Proof/Machine/Fetch.lean ====
section
/-! DEFINITION. Fetching and decoding the instruction at the program counter (spec/00_scope.md R15, spec/20_memory.md R60,
R62, R65), and placing a word there. -/

namespace Sys2Proof.Machine

/-- What the fetch and decode stages raise: a cause and its `FAULT_INFO` (R201). -/
abbrev Raised := FaultCause × Word

/-- The instruction at `pc`: the fetch bound is checked first, then the word is decoded (R207). -/
def State.fetch (s : State) : Except Raised Instr :=
  match s.memRead s.pc.toInt with
  | none => .error (.memOutOfBounds, trunc32 s.pc.toInt)
  | some w =>
    match decode s.cfg.opc w with
    | .error _ => .error (.malformedOpcode, w)
    | .ok i => .ok i

/-- The state with the word `w` at the address `pc` holds. -/
def State.placeAtPc (s : State) (w : Word) : State := s.setMem (s.mem.write s.pc.toInt.toNat w)

end Sys2Proof.Machine
end

