-- ==== Sys2Proof/Machine/Step.lean ====
section
/-! DEFINITION. One step of the core (spec/00_scope.md R15). -/

namespace Sys2Proof.Machine

/-- `step()`: fetch, decode, execute, count; there is no step unless `STATUS` is `RUNNING` (R15, R16, R31). -/
def step (s : State) : Host.Outcome State Fault Refusal :=
  match s.status with
  | .halted => .fault .halted
  | .faulted => .fault .faulted
  | .running =>
    match s.fetch with
    | .error (c, info) => .next (s.raise c info)
    | .ok i => retire (exec i s)

/-- `s` with a word of spec/opcode_table.json stored where the next step fetches: at the address `pc` holds, which must be
in memory, and `s` must be `RUNNING`, for that step to run it. Only that memory word changes. -/
def State.withFetchWord (s : State) (nbits w : Nat) : State := s.placeAtPc (tableWord nbits w)

end Sys2Proof.Machine
end

