-- ==== Sys2Proof/Machine/Text.lean ====
section
/-! DEFINITION. Text, as the assembler and the program file use it: cutting at a separator, and decimal integers
(spec/30_encoding.md R95, R97, R98). The spec says "decimal integer" and no more: which spellings count as one is the model's
choice, log entry 23. -/

namespace Sys2Proof.Machine.Asm

/-- Text of a file, of a line or of one of its fields. -/
abbrev Text := List Char

/-- The pieces of a text between single separators; there is always one piece more than there are separators. -/
def cut (sep : Char) : Text → List Text
  | [] => [[]]
  | c :: cs =>
    if c = sep then [] :: cut sep cs
    else
      match cut sep cs with
      | [] => [[c]]
      | f :: fs => (c :: f) :: fs

/-- The text that `cut` cuts into these pieces: the separator stands between two pieces and nowhere else. -/
def join (sep : Char) : List Text → Text
  | [] => []
  | [l] => l
  | l :: ls => l ++ sep :: join sep ls

/-! ## Decimal integers -/

/-- The value of decimal digits after `acc`; nothing if a character is no digit. -/
def digitsFrom (acc : Nat) : Text → Option Nat
  | [] => some acc
  | c :: cs => if c.isDigit then digitsFrom (acc * 10 + (c.toNat - '0'.toNat)) cs else none

/-- A non-negative decimal integer: one digit or more. DESIGN CHOICE (log entry 23): leading zeros are accepted, so `007` is 7, and
a plus sign is not. -/
def parseNat (t : Text) : Option Nat :=
  match t with
  | [] => none
  | _ :: _ => digitsFrom 0 t

/-- A decimal integer: digits, or a minus sign and digits. DESIGN CHOICE (log entry 23): `-0` is the integer 0. -/
def parseInt (t : Text) : Option Int :=
  match t with
  | '-' :: rest => (parseNat rest).map (fun n => -(n : Int))
  | _ => (parseNat t).map (fun n => (n : Int))

/-- The character of a decimal digit, `d < 10`. -/
def digitChar (d : Nat) : Char := Char.ofNat ('0'.toNat + d)

/-- The decimal digits of `n` before `rest`, at most `fuel` of them. -/
def showNatBefore (rest : Text) : Nat → Nat → Text
  | 0, _ => rest
  | fuel + 1, n =>
    if n < 10 then digitChar n :: rest
    else showNatBefore (digitChar (n % 10) :: rest) fuel (n / 10)

/-- The decimal digits of `n`, without leading zeros; `n` has no more than `n + 1` of them. -/
def showNat (n : Nat) : Text := showNatBefore [] (n + 1) n

/-- A decimal integer as it is written out: a minus sign for a negative one, no plus sign, no leading zeros (log entry 23). -/
def showInt (n : Int) : Text :=
  if n < 0 then '-' :: showNat n.natAbs else showNat n.natAbs

end Sys2Proof.Machine.Asm
end

