-- ==== Sys2Proof/Machine/ProgramFile.lean ====
section
/-! DEFINITION. The text of the program file (spec/30_encoding.md R95): one decimal machine word per line, no newline after the last
line. -/

namespace Sys2Proof.Machine

open Asm

/-! ## Writing it -/

/-- The lines of the program file: each word as a decimal 32-bit signed integer (R95). -/
def fileLines (words : List Word) : List Text := words.map (fun w => showInt w.toInt)

/-- The text of the program file: a newline between two lines and none after the last one (R95). -/
def fileText (words : List Word) : Text := join '\n' (fileLines words)

/-! ## Reading it -/

/-- A line of the program file: a decimal integer in `[-2^31, 2^31 - 1]`, as the word it stands for; any other line is refused
(R95, U14). -/
def lineWord (line : Text) : Option Word :=
  match parseInt line with
  | some n => if -2 ^ 31 ≤ n ∧ n ≤ 2 ^ 31 - 1 then some (trunc32 n) else none
  | none => none

/-- The words of the lines, if every line is a word (R95). -/
def fileWords : List Text → Option (List Word)
  | [] => some []
  | line :: rest =>
    match lineWord line, fileWords rest with
    | some w, some ws => some (w :: ws)
    | _, _ => none

/-- The words of a program file. A file of no characters is the program of no words (R243 does not exclude it); a newline after the
last line is an empty line more, which is no integer, so the file is refused (R95, U14; log entry 17). -/
def readFile (text : Text) : Option (List Word) :=
  match text with
  | [] => some []
  | _ :: _ => fileWords (cut '\n' text)

end Sys2Proof.Machine
end

