-- ==== Sys2Proof/Machine/Assembler.lean ====
section
/-! DEFINITION. The assembler, software the spec describes because it alone defines the textual form of programs
(spec/00_scope.md R5, spec/30_encoding.md R97 to R109). A source line is a list of characters. No rule of the core depends
on anything here. -/

namespace Sys2Proof.Machine.Asm

/-- Why a program is rejected. Any error suppresses all output (R109); the first one is reported. -/
inductive AsmError where
  /-- not two to five fields separated by single spaces (R97, C13, log entry 19) -/
  | badFields
  /-- the mnemonic is none of the closed set (R2, R108) -/
  | unknownMnemonic
  /-- the operand count is not the mnemonic's arity (R98) -/
  | wrongArity
  /-- a register operand is no integer in `[0, 16)` (R100) -/
  | badRegister
  /-- an address operand is neither an admitted integer nor a letter-only symbol (R101, R102) -/
  | badAddress
  /-- a label is not a letter followed by letters and digits (R102) -/
  | badLabel
  /-- a label is defined twice (R102) -/
  | duplicateLabel
  /-- a symbol names no label (R103) -/
  | undefinedLabel
  /-- a resolved offset does not fit the 15-bit field (R104) -/
  | offsetRange
  /-- a `.fill` value is no 32-bit signed integer (R101, D27) -/
  | fillRange
  /-- the static stack depth would leave `0 .. 32` (R107) -/
  | stackBalance
  /-- more lines than `MEM_WORDS` (R106) -/
  | capacity
  deriving DecidableEq, Repr

/-! ## Lines and fields (R97) -/

/-- The fields of a line, cut at every single space; a line that begins with a space has an empty first field (R97). -/
def fields : Text → List Text := cut ' '

/-- The spelling of a mnemonic (R2). -/
def spelling : Mnemonic → Text
  | .add => ['a', 'd', 'd']
  | .mul => ['m', 'u', 'l']
  | .div => ['d', 'i', 'v']
  | .imul => ['i', 'm', 'u', 'l']
  | .xidiv => ['x', 'i', 'd', 'i', 'v']
  | .and => ['a', 'n', 'd']
  | .xor => ['x', 'o', 'r']
  | .nand => ['n', 'a', 'n', 'd']
  | .cmpge => ['c', 'm', 'p', 'g', 'e']
  | .lw => ['l', 'w']
  | .sw => ['s', 'w']
  | .beq => ['b', 'e', 'q']
  | .jarl => ['j', 'a', 'r', 'l']
  | .jmae => ['j', 'm', 'a', 'e']
  | .jmnae => ['j', 'm', 'n', 'a', 'e']
  | .jne => ['j', 'n', 'e']
  | .halt => ['h', 'a', 'l', 't']
  | .bsr => ['b', 's', 'r']
  | .bsf => ['b', 's', 'f']
  | .push => ['p', 'u', 's', 'h']
  | .pop => ['p', 'o', 'p']

/-- What a line's second field names: an instruction, or the directive `.fill` (R105). -/
inductive Op where
  | instr (m : Mnemonic)
  | fill
  deriving DecidableEq, Repr

/-- The operation a mnemonic field names (R2, R108). DESIGN CHOICE (log entry 24): only the lower-case spelling of R2 names it. -/
def parseOp (t : Text) : Option Op :=
  if t = ['.', 'f', 'i', 'l', 'l'] then some .fill
  else (Mnemonic.all.find? (fun m => spelling m == t)).map .instr

/-! ## Operands (R98 to R101) -/

/-- A register operand: a decimal integer in `[0, 16)` (R98, R100), with the spellings of `parseInt` (log entry 23). -/
def parseReg (t : Text) : Except AsmError Reg :=
  match parseInt t with
  | some n => if h : 0 ≤ n ∧ n < 16 then .ok ⟨n.toNat, by omega⟩ else .error .badRegister
  | none => .error .badRegister

/-- An address operand: a number, or a symbol made of letters only (R98, R101). -/
inductive Addr where
  | num (n : Int)
  | sym (name : Text)
  deriving DecidableEq, Repr

/-- A symbol: letters only, at least one (R101, R103). -/
def isSymbol (t : Text) : Bool := !t.isEmpty && t.all Char.isAlpha

/-- An address operand of an instruction or of `.fill`, with the spellings of `parseInt` (log entry 23); only `.fill` admits a negative
number (R101, D27, C8). -/
def parseAddr (negative : Bool) (t : Text) : Except AsmError Addr :=
  match parseInt t with
  | some n => if 0 ≤ n ∨ negative = true then .ok (.num n) else .error .badAddress
  | none => if isSymbol t then .ok (.sym t) else .error .badAddress

/-- The body of a line before its labels are resolved. -/
inductive Body where
  /-- an instruction with its register operands in the fields A, B, C (0 where its format has none) and its address
  operand, if its format has an offset (R98, R99) -/
  | instr (m : Mnemonic) (a b c : Reg) (addr : Option Addr)
  | fill (addr : Addr)
  deriving DecidableEq, Repr

/-- The operands of an instruction, by its format (R98, R99). -/
def parseOperands (m : Mnemonic) (ops : List Text) : Except AsmError Body :=
  match m.format, ops with
  | .RRR, [x, y, z] => do return .instr m (← parseReg x) (← parseReg y) (← parseReg z) none
  | .RRO, [x, y, z] => do return .instr m (← parseReg x) (← parseReg y) 0 (some (← parseAddr false z))
  | .O, [z] => do return .instr m 0 0 0 (some (← parseAddr false z))
  | .RR, [x, y] => do return .instr m (← parseReg x) (← parseReg y) 0 none
  | .Z, [] => .ok (.instr m 0 0 0 none)
  | _, _ => .error .wrongArity

/-- The body of a line: its operation with its operands (R98, R105, R108). -/
def parseBody (op : Text) (ops : List Text) : Except AsmError Body :=
  match parseOp op with
  | none => .error .unknownMnemonic
  | some .fill =>
    match ops with
    | [x] => do return .fill (← parseAddr true x)
    | _ => .error .wrongArity
  | some (.instr m) => parseOperands m ops

/-! ## Labels (R102) -/

/-- A label name: a letter, then letters and digits (R102), of either case. DESIGN CHOICE (log entry 24): it has no greatest length, and
it may be spelled like a mnemonic. -/
def isLabel : Text → Bool
  | [] => false
  | c :: cs => c.isAlpha && cs.all Char.isAlphanum

/-- A line of the source: its label, if it has one, and its body (R97). -/
structure Line where
  label : Option Text
  body : Body
  deriving DecidableEq, Repr

/-- One line of the source (R97, R98, R102, R108). -/
def parseLine (t : Text) : Except AsmError Line :=
  match fields t with
  | label :: op :: ops =>
    if 3 < ops.length then .error .badFields
    else if !label.isEmpty && !isLabel label then .error .badLabel
    else do return { label := if label.isEmpty then none else some label, body := ← parseBody op ops }
  | _ => .error .badFields

/-- The label table: names with the addresses of their lines (R102). -/
abbrev Labels := List (Text × Nat)

/-- The labels of the lines from address `a` on; a name may be defined once (R102). DESIGN CHOICE (log entry 24): names are compared
character by character, so `Loop` and `loop` are two labels. -/
def collect (a : Nat) : List Line → Except AsmError Labels
  | [] => .ok []
  | l :: ls => do
    let rest ← collect (a + 1) ls
    match l.label with
    | none => return rest
    | some n => if rest.any (fun p => p.1 == n) then .error .duplicateLabel else return (n, a) :: rest

/-- The address of a label (R103). DESIGN CHOICE (log entry 24): a symbol names the label spelled with the same letters in the same
case. -/
def Labels.address (t : Labels) (n : Text) : Except AsmError Nat :=
  match t.find? (fun p => p.1 == n) with
  | some p => .ok p.2
  | none => .error .undefinedLabel

/-! ## The static stack check (R107) -/

/-- The depth counter over the lines in source order, from `depth` on. -/
def stackBalanced (depth : Nat) : List Line → Bool
  | [] => true
  | l :: ls =>
    match l.body with
    | .instr .push _ _ _ _ => decide (depth + 1 ≤ Config.stackCap) && stackBalanced (depth + 1) ls
    | .instr .pop _ _ _ _ => decide (1 ≤ depth) && stackBalanced (depth - 1) ls
    | _ => stackBalanced depth ls

/-! ## Resolution and emission (R103 to R105) -/

/-- The instructions whose label operand becomes an offset from the next instruction; for `lw` and `sw` it stays the
label's absolute address (R103). -/
def pcRelative : Mnemonic → Bool
  | .beq | .jmae | .jmnae | .jne => true
  | _ => false

/-- The offset a label at `target` gives an instruction at `here` (R103). -/
def labelOffset (m : Mnemonic) (target here : Nat) : Int :=
  if pcRelative m then (target : Int) - here - 1 else target

/-- The offset of the instruction at `here`: a number as written, a label resolved; it must fit the field (R101, R103, R104). -/
def resolve (labels : Labels) (m : Mnemonic) (here : Nat) (a : Addr) : Except AsmError Int := do
  let off ←
    match a with
    | .num n => pure n
    | .sym name => (labels.address name).map (labelOffset m · here)
  if offsetInRange off then return off else .error .offsetRange

/-- The word `.fill` emits: the operand's value itself (R105). -/
def fillWord (labels : Labels) (a : Addr) : Except AsmError Word := do
  let v ←
    match a with
    | .num n => pure n
    | .sym name => (labels.address name).map Int.ofNat
  if -2 ^ 31 ≤ v ∧ v ≤ 2 ^ 31 - 1 then return trunc32 v else .error .fillRange

/-- The word of the line at address `here` (R92, R103, R105). -/
def emit (o : OpcMap) (labels : Labels) (here : Nat) : Body → Except AsmError Word
  | .instr m a b c none => .ok (encode o (.ofFields m a b c 0))
  | .instr m a b c (some addr) => do return encode o (.ofFields m a b c (← resolve labels m here addr))
  | .fill addr => fillWord labels addr

/-- The words of the lines from address `here` on: pass 2 (R108). -/
def emitAll (o : OpcMap) (labels : Labels) (here : Nat) : List Line → Except AsmError (List Word)
  | [] => .ok []
  | l :: ls => do return (← emit o labels here l.body) :: (← emitAll o labels (here + 1) ls)

/-- All lines parsed (R108). -/
def parseAll : List Text → Except AsmError (List Line)
  | [] => .ok []
  | t :: ts => do return (← parseLine t) :: (← parseAll ts)

/-- The program of a source: one word per line, in address order, or no output at all (R106 to R109). -/
def assemble (c : Config) (source : List Text) : Except AsmError (List Word) :=
  if c.memWords < source.length then .error .capacity
  else do
    let lines ← parseAll source
    if !stackBalanced 0 lines then .error .stackBalance
    else do
      let labels ← collect 0 lines
      emitAll c.opc labels 0 lines

/-- The program file of a source: the assembler's only output (R95, R109). -/
def assembleFile (c : Config) (source : List Text) : Except AsmError Text := (assemble c source).map fileText

end Sys2Proof.Machine.Asm
end

