-- ==== Sys2Proof/Machine/Bus.lean ====
section
/-! DEFINITION. The memory interface at transaction level: which reads and writes of `MEM` one step issues, in order
(spec/20_memory.md R68). -/

namespace Sys2Proof.Machine

/-- One transaction on the memory interface: a word address and the word read or written (R68). -/
inductive Transaction where
  | read (a : Nat) (v : Word)
  | write (a : Nat) (v : Word)
  deriving DecidableEq, Repr

/-- The read of an address, issued only where the address exists (R60, R68). -/
def State.readTransaction (s : State) (a : Int) : List Transaction :=
  match s.memRead a with
  | none => []
  | some v => [.read a.toNat v]

/-- The write to an address, issued only where the address exists (R60, R68). -/
def State.writeTransaction (s : State) (a : Int) (v : Word) : List Transaction :=
  if s.inMemory a then [.write a.toNat v] else []

/-- The data transaction of an instruction: one read for `lw`, one write for `sw`, none for any other (R68). -/
def State.dataTransactions (s : State) : Instr → List Transaction
  | .lw a _ off => s.readTransaction (s.ea a off)
  | .sw a b off => s.writeTransaction (s.ea a off) (s.reg b)
  | .add _ _ _ => []
  | .mul _ _ _ => []
  | .div _ _ _ => []
  | .imul _ _ _ => []
  | .xidiv _ _ _ => []
  | .and _ _ _ => []
  | .xor _ _ _ => []
  | .nand _ _ _ => []
  | .cmpge _ _ _ => []
  | .beq _ _ _ => []
  | .jarl _ _ => []
  | .jmae _ _ _ => []
  | .jmnae _ _ _ => []
  | .jne _ => []
  | .halt => []
  | .bsr _ _ => []
  | .bsf _ _ => []
  | .push => []
  | .pop => []

/-- The transactions of the next step: the fetch, then the data transaction of the instruction decoded (R68); none when the core
takes no step (R31). -/
def State.transactions (s : State) : List Transaction :=
  match s.status with
  | .halted => []
  | .faulted => []
  | .running =>
    s.readTransaction s.pc.toInt ++
      match s.fetch with
      | .error _ => []
      | .ok i => s.dataTransactions i

end Sys2Proof.Machine
end

