-- ==== Sys2Proof/Machine/Launch.lean ====
section
/-! DEFINITION. What the host does with the core: it loads a program before the first step, may preset general registers,
reads the state between steps, and runs under a bound it supplies (spec/70_reset_and_hazards.md R243 to R250,
spec/10_state.md R37, spec/30_encoding.md R95). -/

namespace Sys2Proof.Machine

/-! ## Program load (R95, R243) -/

/-- The memory with the words stored at `a`, `a + 1`, … -/
def Memory.load : Nat → List Word → Memory → Memory
  | _, [], m => m
  | a, w :: ws, m => Memory.load (a + 1) ws (m.write a w)

/-- The launch state: the reset state with word `i` of the program at address `i`; a program of more than `MEM_WORDS` words is
refused (R240, R243, U14). -/
def State.launch (c : Config) (program : List Word) : Option State :=
  if program.length ≤ c.memWords then some { State.resetWith c with mem := Memory.load 0 program [] } else none

/-- The launch state of a program file; a file that is not well-formed is refused (R95, R243, U14). -/
def State.launchFile (c : Config) (text : Asm.Text) : Option State := (readFile text).bind (State.launch c)

/-- A harness may replace the values of general registers before the first step, and nothing else (R249, D29). -/
def State.preset (s : State) : List (Reg × Word) → State
  | [] => s
  | (r, v) :: rest => (s.setReg r v).preset rest

/-! ## Observation (R37, R248) -/

/-- The source's snapshot: all a host can observe of a state (R37). -/
structure Snapshot where
  pc : Word
  /-- the entire memory contents, `MEM[0]` first -/
  memory : List Word
  /-- `x[0]` first -/
  registers : List Word
  /-- the stack, top to bottom -/
  stack : List Word
  flag : Bool
  deriving DecidableEq, Repr

/-- The snapshot of a state; observing has no effect on the core (R248). -/
def State.snapshot (s : State) : Snapshot where
  pc := s.pc
  memory := (List.range s.cfg.memWords).map s.mem.read
  registers := s.regs.toList
  stack := s.stack
  flag := s.flag

/-! ## A bounded run (R16, R244, R250) -/

/-- How a run under a step bound ends. -/
inductive RunEnd where
  /-- the core executed `halt`: the only successful end (R16, R244) -/
  | halted (s : State)
  /-- a fault stopped the core: unsuccessful, the source keeps nothing but the diagnostic (R209, R244) -/
  | faulted (s : State)
  /-- the caller's bound is used up and the core still runs: an outcome of the harness (R250, U5) -/
  | outOfFuel (s : State)
  /-- `STATUS` is `RUNNING` and there is no step: it never happens (U5) -/
  | stuck (s : State)
  deriving DecidableEq, Repr

/-- At most `fuel` steps from `s` (R250). -/
def run : Nat → State → RunEnd
  | fuel, s =>
    match s.status with
    | .halted => .halted s
    | .faulted => .faulted s
    | .running =>
      match fuel with
      | 0 => .outOfFuel s
      | fuel + 1 =>
        match step s with
        | .next t => run fuel t
        | .fault _ => .stuck s
        | .refused _ => .stuck s

/-- What the host learns from the end of a run: of a halted one the final snapshot and the instruction count, of a faulted one
its cause and nothing more (R37, R244). -/
inductive Report where
  | halted (snapshot : Snapshot) (icount : Nat)
  | faulted (cause : FaultCause)
  | unfinished
  deriving DecidableEq, Repr

/-- The report of an end of a run. -/
def RunEnd.report : RunEnd → Report
  | .halted s => .halted s.snapshot s.icount
  | .faulted s => .faulted s.faultCause
  | .outOfFuel _ => .unfinished
  | .stuck _ => .unfinished

end Sys2Proof.Machine
end

