-- ==== Sys2Proof/Safety.lean ====
section
/-! DEFINITION. The words claims are stated in: the legal states, what a step may leave unchanged, when a step faults, and
what a successful run is. -/

namespace Sys2Proof.Machine

/-! ## Legal states -/

/-- The fault record agrees with `STATUS`: there is a cause exactly when the core has faulted, and no value without a cause
(R31, R32). -/
abbrev State.faultRecordOk (s : State) : Prop :=
  (s.status = .faulted ↔ s.faultCause ≠ .noFault) ∧ (s.faultCause = .noFault → s.faultInfo = 0)

/-- Every listed memory word exists: its address is below `MEM_WORDS` (R51). -/
abbrev State.memInBounds (s : State) : Prop := ∀ p ∈ s.mem, p.1 < s.cfg.memWords

/-- A legal state: an admitted configuration, memory in canonical form and in bounds, at most 32 stack entries, and a fault
record that agrees with `STATUS` (R7, R29, R30, R31, R32, R51). -/
structure State.Inv (s : State) : Prop where
  cfg : s.cfg.legal = true
  memWf : s.mem.wf = true
  memBound : s.memInBounds
  stack : s.sp ≤ Config.stackCap
  record : s.faultRecordOk

/-! ## What is unchanged between two states -/

/-- Every register but those of `rs` is unchanged. -/
def RegsSame (s t : State) (rs : List Reg) : Prop := ∀ r, r ∉ rs → t.reg r = s.reg r

/-- Every word of memory reads as before, and the same addresses exist. -/
def MemSame (s t : State) : Prop := ∀ a : Int, t.memRead a = s.memRead a

/-- Every word of memory but the one at `ea` reads as before. -/
def MemSameBut (s t : State) (ea : Int) : Prop := ∀ a : Int, a ≠ ea → t.memRead a = s.memRead a

/-- The run status and the fault record are unchanged, and with them the configuration and the instruction count, which the
end of the step writes (R15). -/
def RecordSame (s t : State) : Prop :=
  t.cfg = s.cfg ∧ t.status = s.status ∧ t.faultCause = s.faultCause ∧ t.faultInfo = s.faultInfo ∧ t.icount = s.icount

/-- The flag, the stack, the run status and the fault record are unchanged. -/
def ControlSame (s t : State) : Prop := t.flag = s.flag ∧ t.stack = s.stack ∧ RecordSame s t

/-- `t` is `s` with the fault `c`, `info` recorded and nothing else changed (R208). -/
def FaultedFrom (s t : State) (c : FaultCause) (info : Word) : Prop :=
  t.status = .faulted ∧ t.faultCause = c ∧ t.faultInfo = info ∧
    RegsSame s t [] ∧ t.pc = s.pc ∧ t.flag = s.flag ∧ t.stack = s.stack ∧ MemSame s t ∧ t.icount = s.icount ∧ t.cfg = s.cfg

/-- `s(pc) + 1` as the next `pc` (R26). -/
def PcAdvanced (s t : State) : Prop := t.pc = trunc32 (s.pc.toInt + 1)

/-! ## Which registers an instruction reads and writes (R23) -/

/-- The registers an instruction reads, row by row of the table of R23. -/
def readsOf : Instr → List Reg
  | .add a b _ => [a, b]
  | .mul a b _ => [a, b]
  | .div a b _ => [a, b]
  | .imul a b _ => [a, b]
  | .xidiv a b _ => [a, b]
  | .and a b _ => [a, b]
  | .xor a b _ => [a, b]
  | .nand a b _ => [a, b]
  | .cmpge a b _ => [a, b]
  | .lw a _ _ => [a]
  | .sw a b _ => [a, b]
  | .beq a b _ => [a, b]
  | .jarl a b => [a, b]
  | .jmae a b _ => [a, b]
  | .jmnae a b _ => [a, b]
  | .jne _ => []
  | .halt => []
  | .bsr a _ => [a]
  | .bsf a _ => [a]
  | .push => [1]
  | .pop => []

/-- The registers an instruction may write, row by row of the table of R23; `jarl` writes one of its two. -/
def writesOf : Instr → List Reg
  | .add _ _ c => [c]
  | .mul _ _ c => [c]
  | .div _ _ c => [c]
  | .imul _ _ c => [c]
  | .xidiv a b c => [c, a, b]
  | .and _ _ c => [c]
  | .xor _ _ c => [c]
  | .nand _ _ c => [c]
  | .cmpge _ _ c => [c]
  | .lw _ b _ => [b]
  | .sw _ _ _ => []
  | .beq _ _ _ => []
  | .jarl a b => [a, b]
  | .jmae _ _ _ => []
  | .jmnae _ _ _ => []
  | .jne _ => []
  | .halt => []
  | .bsr _ b => [b]
  | .bsf _ b => [b]
  | .push => []
  | .pop => [1]

/-! ## When a step faults (R201) -/

/-- A running core's step raises this cause with this `FAULT_INFO`: the table of R201, row by row. -/
inductive Raises (s : State) : FaultCause → Word → Prop
  /-- instruction fetch outside memory -/
  | fetch (out : ¬(0 ≤ s.pc.toInt ∧ s.pc.toInt < s.cfg.memWords)) : Raises s .memOutOfBounds s.pc
  /-- a fetched word that is no instruction -/
  | decode (w : Word) (read : s.memRead s.pc.toInt = some w)
      (bad : w.extractLsb' 28 4 ≠ 0 ∨ ∀ m, s.cfg.opc.code m ≠ w.extractLsb' 23 5) : Raises s .malformedOpcode w
  /-- `div` by 0 -/
  | div (a b c : Reg) (i : s.fetch = .ok (.div a b c)) (zero : s.reg b = 0) : Raises s .divideError s.pc
  /-- `xidiv` by 0 -/
  | xidivZero (a b c : Reg) (i : s.fetch = .ok (.xidiv a b c)) (zero : s.reg b = 0) : Raises s .divideError s.pc
  /-- `xidiv` of `-2^31` by `-1` (D8) -/
  | xidivOverflow (a b c : Reg) (i : s.fetch = .ok (.xidiv a b c)) (dividend : (s.reg a).toInt = -2 ^ 31)
      (divisor : (s.reg b).toInt = -1) (par : s.cfg.xidivOvf = .fault) : Raises s .divideError s.pc
  /-- `lw` outside memory -/
  | load (a b : Reg) (off : Int) (i : s.fetch = .ok (.lw a b off))
      (out : ¬(0 ≤ s.ea a off ∧ s.ea a off < s.cfg.memWords)) : Raises s .memOutOfBounds (trunc32 (s.ea a off))
  /-- `sw` outside memory -/
  | store (a b : Reg) (off : Int) (i : s.fetch = .ok (.sw a b off))
      (out : ¬(0 ≤ s.ea a off ∧ s.ea a off < s.cfg.memWords)) : Raises s .memOutOfBounds (trunc32 (s.ea a off))
  /-- `push` on a full stack -/
  | push (i : s.fetch = .ok .push) (full : 32 ≤ s.sp) : Raises s .stackOverflow s.pc
  /-- `pop` on an empty stack -/
  | pop (i : s.fetch = .ok .pop) (empty : s.sp = 0) : Raises s .stackUnderflow s.pc

/-! ## Runs -/

/-- The states some number of steps leads to from `s` (R16). -/
inductive Reaches : State → State → Prop
  | refl (s : State) : Reaches s s
  | tail (s t u : State) (before : Reaches s t) (last : step t = .next u) : Reaches s u

/-- The run from `s` completes in `t`: it ends with `halt`, so no fault was met (R16, R209, R244). -/
def Completes (s t : State) : Prop := Reaches s t ∧ t.status = .halted

end Sys2Proof.Machine
end

