-- ==== Sys2Proof/Certificates/Slice0/Obligations.lean ====
section
/-! DEFINITION. The statements for the provers. Each docstring names the rule of the spec it formalises; where the rule rests on
a decision the spec calls its own choice, the docstring names the decision. -/

open Sys2Proof Sys2Proof.Machine

/-! ## Encoding and decoding -/

/-- Words written out from the encodings of R88: seven decode to the instructions they stand for, and two are rejected, one for a bit
among 31:28 (R82, decision D2, log entry 15) and one for the unassigned opcode 21 (R89). The opcode numbers are decision D1, the spec's
own choice. -/
def Obligations.WrittenWordsDecode : Prop :=
  decode .listing 0b00000000000000001000000000000010#32 = .ok (.add 0 1 2) ∧
  decode .listing 0b00000010000010010000000000000011#32 = .ok (.xidiv 1 2 3) ∧
  decode .listing 0b00000100100100001011111111111111#32 = .ok (.lw 2 1 16383) ∧
  decode .listing 0b00000101100000000111111111111100#32 = .ok (.beq 0 0 (-4)) ∧
  decode .listing 0b00000110001010110000000000000000#32 = .ok (.jarl 5 6) ∧
  decode .listing 0b00001000100010010000000000000000#32 = .ok (.bsr 1 2) ∧
  decode .listing 0b00001001111111110111111111111111#32 = .ok .push ∧
  decode .listing 0b00010000000000000000000000000000#32 = .error (.reservedBits 1) ∧
  decode .listing 0b00001010100000000000000000000000#32 = .error (.unassignedOpcode 21)

/-- Round trip (R93), under every injective opcode map: decoding an encoded well-formed instruction gives it back; the converse
does not hold, since ignored fields are dropped. -/
def Obligations.DecodeInvertsEncode : Prop :=
  (∀ (o : OpcMap) (i : Instr), o.injective = true → i.wellFormed = true → decode o (encode o i) = .ok i) ∧
  (∀ o : OpcMap, o.injective = true → ∃ (w : Word) (i : Instr), decode o w = .ok i ∧ encode o i ≠ w)

/-- The encoded word as a number (R92): `OPC << 23 | A << 19 | B << 15 | F`, the field `F` by format, and always below `2^28`. That unused
fields are 0 is decision D21. R92 gives `F` for offsets from -16384 to 16383; that the encoder takes any other integer modulo `2^15` as
well is the model's choice (log entry 10). -/
def Obligations.EncodedWordFormula : Prop :=
  ∀ (o : OpcMap) (m : Mnemonic) (a b c : Reg) (off : Int),
    (encode o (.ofFields m a b c off)).toNat < 2 ^ 28 ∧
    (encode o (.ofFields m a b c off)).toNat =
      match m.format with
      | .RRR => (o.code m).toNat * 2 ^ 23 + a.val * 2 ^ 19 + b.val * 2 ^ 15 + c.val
      | .RRO => (o.code m).toNat * 2 ^ 23 + a.val * 2 ^ 19 + b.val * 2 ^ 15 + (off % 2 ^ 15).toNat
      | .O => (o.code m).toNat * 2 ^ 23 + (off % 2 ^ 15).toNat
      | .RR => (o.code m).toNat * 2 ^ 23 + a.val * 2 ^ 19 + b.val * 2 ^ 15
      | .Z => (o.code m).toNat * 2 ^ 23

/-- `Decode` (R96): a word with a bit among 31:28 (decision D2) or an opcode outside the map's image is rejected, and every
other word is its mnemonic's instruction with the fields of its format, read from the bits R84 to R86 give. -/
def Obligations.DecodeByFieldsOrRejects : Prop :=
  ∀ (o : OpcMap) (w : Word), o.injective = true →
    ((w.extractLsb' 28 4 ≠ 0 ∨ ∀ m, o.code m ≠ w.extractLsb' 23 5) → ∃ e, decode o w = .error e) ∧
    (w.extractLsb' 28 4 = 0 → ∀ m, o.code m = w.extractLsb' 23 5 →
      decode o w = .ok (.ofFields m (w.extractLsb' 19 4).toFin (w.extractLsb' 15 4).toFin (w.extractLsb' 0 4).toFin
        ((w.extractLsb' 0 15).signExtend 32).toInt))

/-- Unused fields are ignored (R83, R87): a word that agrees with an instruction's word on the bits its format uses decodes to the
same instruction. The encoder leaves the unused bits 0 (decision D21). -/
def Obligations.IgnoredFieldsDoNotMatter : Prop :=
  ∀ (o : OpcMap) (i : Instr) (used : Word),
    (used = match i.mnemonic.format with
      | .RRR => 0xFFFF800F#32
      | .RRO => 0xFFFFFFFF#32
      | .O => 0xFF807FFF#32
      | .RR => 0xFFFF8000#32
      | .Z => 0xFF800000#32) →
    (∀ w w' : Word, decode o w = .ok i → w &&& used = w' &&& used → decode o w' = .ok i) ∧
    encode o i &&& ~~~used = 0

/-- The offset field (R85): values below `0x4000` mean themselves, the others themselves less `2^15`. -/
def Obligations.OffsetFieldSignExtends : Prop :=
  ∀ w : Word,
    ((w.extractLsb' 0 15).toNat < 0x4000 → fieldOff w = (w.extractLsb' 0 15).toNat) ∧
    (0x4000 ≤ (w.extractLsb' 0 15).toNat → fieldOff w = ((w.extractLsb' 0 15).toNat : Int) - 2 ^ 15) ∧
    -16384 ≤ fieldOff w ∧ fieldOff w ≤ 16383

/-! ## Reset and launch -/

/-- The state after reset (R38, R240): registers 0, `pc` 0, flag clear, empty stack, `RUNNING`, no fault, nothing counted, every
word of memory `MEM_FILL`. `STATUS`, the fault record and `ICOUNT` are the spec's own representation (decisions D13 and D20, log entry
16), and `MEM_FILL` = 0 is decision D4 (log entry 4). That `State.reset` has 16384 words is a chosen default, the spec's (decision D3) and
the model's (log entry 2); the clauses after it hold under every configuration. -/
def Obligations.ResetState : Prop :=
  State.reset.cfg.memWords = 16384 ∧ State.reset = State.resetWith .default ∧
  ∀ c : Config, (State.resetWith c).cfg = c ∧
    (∀ r, (State.resetWith c).reg r = 0) ∧ (State.resetWith c).pc = 0 ∧ (State.resetWith c).flag = false ∧
    (State.resetWith c).sp = 0 ∧ (State.resetWith c).status = .running ∧ (State.resetWith c).faultCause = .noFault ∧
    (State.resetWith c).faultInfo = 0 ∧ (State.resetWith c).icount = 0 ∧
    ∀ a : Int, 0 ≤ a → a < c.memWords → (State.resetWith c).memRead a = some 0

/-- Program load (R243, R38): word `i` of the program stands at address `i`, every other word is `MEM_FILL` (decision D4), and the
rest is the reset state (its `STATUS`, fault record and `ICOUNT` by decisions D13 and D20, log entry 16). R243 leaves a program of more
than `MEM_WORDS` words outside the core; that the model has no launch state for it follows U14 (log entry 17). -/
def Obligations.LaunchLoadsProgram : Prop :=
  ∀ (c : Config) (program : List Word),
    (c.memWords < program.length → State.launch c program = none) ∧
    (program.length ≤ c.memWords → ∃ s, State.launch c program = some s ∧
      (∀ (i : Nat) (h : i < program.length), s.memRead i = some program[i]) ∧
      (∀ i : Nat, program.length ≤ i → i < c.memWords → s.memRead i = some 0) ∧
      s.setMem [] = State.resetWith c)

/-! ## Arithmetic, bitwise, compare -/

/-- `add` (R121): the sum of the signed values, wrapped (decision D6), into `x[C]`; nothing else but `pc` changes. -/
def Obligations.AddWrapsIntoDestination : Prop :=
  ∀ (s : State) (a b c : Reg), ∃ t, exec (.add a b c) s = .next t ∧
    t.reg c = trunc32 ((s.reg a).toInt + (s.reg b).toInt) ∧ t.reg c = s.reg a + s.reg b ∧
    RegsSame s t [c] ∧ PcAdvanced s t ∧ ControlSame s t ∧ MemSame s t

/-- `nand`, `and`, `xor` (R122, R123, R124), bit by bit; nothing else but `pc` changes. -/
def Obligations.BitwiseResults : Prop :=
  ∀ (s : State) (a b c : Reg),
    (∃ t, exec (.nand a b c) s = .next t ∧
      (∀ k < 32, (t.reg c).getLsbD k = !((s.reg a).getLsbD k && (s.reg b).getLsbD k)) ∧
      RegsSame s t [c] ∧ PcAdvanced s t ∧ ControlSame s t ∧ MemSame s t) ∧
    (∃ t, exec (.and a b c) s = .next t ∧
      (∀ k < 32, (t.reg c).getLsbD k = ((s.reg a).getLsbD k && (s.reg b).getLsbD k)) ∧
      RegsSame s t [c] ∧ PcAdvanced s t ∧ ControlSame s t ∧ MemSame s t) ∧
    (∃ t, exec (.xor a b c) s = .next t ∧
      (∀ k < 32, (t.reg c).getLsbD k = ((s.reg a).getLsbD k ^^ (s.reg b).getLsbD k)) ∧
      RegsSame s t [c] ∧ PcAdvanced s t ∧ ControlSame s t ∧ MemSame s t)

/-- `mul` and `imul` (R125, R127): the low 32 bits of the unsigned and of the signed product (decisions D9, D6), which are one
pattern; nothing else but `pc` changes. -/
def Obligations.MultiplyLowWord : Prop :=
  ∀ (s : State) (a b c : Reg),
    (∃ t, exec (.mul a b c) s = .next t ∧
      (t.reg c).toNat = (s.reg a).toNat * (s.reg b).toNat % 2 ^ 32 ∧
      RegsSame s t [c] ∧ PcAdvanced s t ∧ ControlSame s t ∧ MemSame s t) ∧
    (∃ t, exec (.imul a b c) s = .next t ∧
      t.reg c = trunc32 ((s.reg a).toInt * (s.reg b).toInt) ∧
      RegsSame s t [c] ∧ PcAdvanced s t ∧ ControlSame s t ∧ MemSame s t)

/-- `mul` and `imul` always have the same effect (R125, R127, corner cases; the two results rest on decisions D9 and D6). -/
def Obligations.MulAndImulAgree : Prop :=
  ∀ (s : State) (a b c : Reg), ∃ t, exec (.mul a b c) s = .next t ∧ exec (.imul a b c) s = .next t

/-- `div` (R126): a zero divisor is the fault `DivideError` with `pc`, and that nothing but the fault record changes then is decision
D13 (log entry 7); otherwise the floor of the quotient of the unsigned values (decision D9) into `x[C]`. -/
def Obligations.DivUnsignedQuotient : Prop :=
  ∀ (s : State) (a b c : Reg),
    (s.reg b = 0 → ∃ t, exec (.div a b c) s = .next t ∧ FaultedFrom s t .divideError s.pc) ∧
    (s.reg b ≠ 0 → ∃ t, exec (.div a b c) s = .next t ∧
      (t.reg c).toNat = (s.reg a).toNat / (s.reg b).toNat ∧
      RegsSame s t [c] ∧ PcAdvanced s t ∧ ControlSame s t ∧ MemSame s t)

/-- When `xidiv` faults (R128, R202): a zero divisor, or `-2^31` by `-1` where the parameter `XIDIV_OVF` is `fault`, decision D8 and
the default. The recorded cause and value, and that nothing else changes, are decision D13 (log entry 7). -/
def Obligations.XidivFaults : Prop :=
  ∀ (s : State) (a b c : Reg),
    (s.reg b = 0 ∨ ((s.reg a).toInt = -2 ^ 31 ∧ (s.reg b).toInt = -1 ∧ s.cfg.xidivOvf = .fault)) →
    ∃ t, exec (.xidiv a b c) s = .next t ∧ FaultedFrom s t .divideError s.pc

/-- `xidiv` (R128): the quotient truncated toward zero (decision D7) is written to `x[C]`, then the contents `x[A]` and `x[B]` have
by then are exchanged (decision D10), so a quotient written to one of them ends in the other; nothing else but `pc` changes. One
register divided by itself gives 1. Where the parameter `XIDIV_OVF` is `wrap`, the one overflowing quotient wraps. -/
def Obligations.XidivQuotientThenExchange : Prop :=
  ∀ (s : State) (a b c : Reg), s.reg b ≠ 0 →
    ¬((s.reg a).toInt = -2 ^ 31 ∧ (s.reg b).toInt = -1 ∧ s.cfg.xidivOvf = .fault) →
    ∃ t q, exec (.xidiv a b c) s = .next t ∧ q = trunc32 (Int.tdiv (s.reg a).toInt (s.reg b).toInt) ∧
      t.reg a = (if b = c then q else s.reg b) ∧ t.reg b = (if a = c then q else s.reg a) ∧
      (c ≠ a → c ≠ b → t.reg c = q) ∧ (a = b → q = 1) ∧
      RegsSame s t [a, b, c] ∧ PcAdvanced s t ∧ ControlSame s t ∧ MemSame s t

/-- `cmpge` (R129): 1 or 0 into `x[C]` by the comparison of the signed values (decision D5, the default of the parameter
`CMP_SIGNED`), or of the unsigned ones where that parameter is false; the flag is not involved. -/
def Obligations.CmpgeWritesOneOrZero : Prop :=
  ∀ (s : State) (a b c : Reg), ∃ t, exec (.cmpge a b c) s = .next t ∧
    (s.cfg.cmpSigned = true → t.reg c = if (s.reg a).toInt ≥ (s.reg b).toInt then 1 else 0) ∧
    (s.cfg.cmpSigned = false → t.reg c = if (s.reg a).toNat ≥ (s.reg b).toNat then 1 else 0) ∧
    RegsSame s t [c] ∧ PcAdvanced s t ∧ ControlSame s t ∧ MemSame s t

/-! ## Load and store -/

/-- `lw` (R150): the word at `s(x[A]) + s(off)`, a sum that is not reduced (decision D26), into `x[B]`, or the fault `MemOutOfBounds` with
that address when it does not exist; that a fault changes nothing but the fault record is decision D13 (log entry 7). -/
def Obligations.LoadWord : Prop :=
  ∀ (s : State) (a b : Reg) (off : Int),
    (0 ≤ (s.reg a).toInt + off ∧ (s.reg a).toInt + off < s.cfg.memWords →
      ∃ t, exec (.lw a b off) s = .next t ∧ some (t.reg b) = s.memRead ((s.reg a).toInt + off) ∧
        RegsSame s t [b] ∧ PcAdvanced s t ∧ ControlSame s t ∧ MemSame s t) ∧
    (¬(0 ≤ (s.reg a).toInt + off ∧ (s.reg a).toInt + off < s.cfg.memWords) →
      ∃ t, exec (.lw a b off) s = .next t ∧
        FaultedFrom s t .memOutOfBounds (trunc32 ((s.reg a).toInt + off)))

/-- `sw` (R151): `x[B]` into the word at `s(x[A]) + s(off)`, a sum that is not reduced (decision D26), and into no other, or the fault
`MemOutOfBounds` with that address when it does not exist; that a fault changes nothing but the fault record is decision D13 (log
entry 7). -/
def Obligations.StoreWord : Prop :=
  ∀ (s : State) (a b : Reg) (off : Int),
    (0 ≤ s.ea a off ∧ s.ea a off < s.cfg.memWords →
      ∃ t, exec (.sw a b off) s = .next t ∧ t.memRead (s.ea a off) = some (s.reg b) ∧
        MemSameBut s t (s.ea a off) ∧ RegsSame s t [] ∧ PcAdvanced s t ∧ ControlSame s t) ∧
    (¬(0 ≤ s.ea a off ∧ s.ea a off < s.cfg.memWords) →
      ∃ t, exec (.sw a b off) s = .next t ∧ FaultedFrom s t .memOutOfBounds (trunc32 (s.ea a off))) ∧
    s.ea a off = (s.reg a).toInt + off

/-- A load after a store (R64): the stored word at its address, at every other what was there. -/
def Obligations.StoreThenLoad : Prop :=
  ∀ (s : State) (a b a' b' : Reg) (off off' : Int),
    0 ≤ s.ea a off → s.ea a off < s.cfg.memWords → 0 ≤ s.ea a' off' → s.ea a' off' < s.cfg.memWords →
    ∃ t u, exec (.sw a b off) s = .next t ∧ exec (.lw a' b' off') t = .next u ∧
      some (u.reg b') = if s.ea a' off' = s.ea a off then some (s.reg b) else s.memRead (s.ea a' off')

/-! ## Control transfer -/

/-- `beq` (R160): `pc + off + 1` when all 32 bits are equal, else `pc + 1`; nothing else changes. A target outside memory is found by
the next fetch, with `pc` already holding it; that this fault changes nothing but the fault record is decision D13 (log entry 7). One
register compared with itself is always taken. -/
def Obligations.BeqBranches : Prop :=
  ∀ (s : State) (a b : Reg) (off : Int), ∃ t, exec (.beq a b off) s = .next t ∧
    (s.reg a = s.reg b → t.pc = trunc32 (s.pc.toInt + off + 1)) ∧
    (s.reg a ≠ s.reg b → t.pc = trunc32 (s.pc.toInt + 1)) ∧
    (a = b → t.pc = trunc32 (s.pc.toInt + off + 1)) ∧
    RegsSame s t [] ∧ ControlSame s t ∧ MemSame s t ∧
    (s.status = .running → ¬(0 ≤ t.pc.toInt ∧ t.pc.toInt < s.cfg.memWords) →
      ∃ u, step t = .next u ∧ FaultedFrom t u .memOutOfBounds t.pc)

/-- `jmae` and `jmnae` (R161, R162): the comparison is of the signed values (decision D5), or of the unsigned ones where the
parameter `CMP_SIGNED` is false; nothing but `pc` changes. -/
def Obligations.OrderBranches : Prop :=
  ∀ (s : State) (a b : Reg) (off : Int) (ge : Prop),
    (ge ↔ if s.cfg.cmpSigned = true then (s.reg a).toInt ≥ (s.reg b).toInt else (s.reg a).toNat ≥ (s.reg b).toNat) →
    (∃ t, exec (.jmae a b off) s = .next t ∧
      (ge → t.pc = trunc32 (s.pc.toInt + off + 1)) ∧ (¬ge → t.pc = trunc32 (s.pc.toInt + 1)) ∧
      RegsSame s t [] ∧ ControlSame s t ∧ MemSame s t) ∧
    (∃ t, exec (.jmnae a b off) s = .next t ∧
      (¬ge → t.pc = trunc32 (s.pc.toInt + off + 1)) ∧ (ge → t.pc = trunc32 (s.pc.toInt + 1)) ∧
      RegsSame s t [] ∧ ControlSame s t ∧ MemSame s t)

/-- `jmae` and `jmnae` with the same operands are exact complements (R161): one of them is taken and the other is not; on one
register twice `jmae` is always taken. -/
def Obligations.OrderBranchesComplement : Prop :=
  ∀ (s : State) (a b : Reg) (off : Int), ∃ t u, exec (.jmae a b off) s = .next t ∧ exec (.jmnae a b off) s = .next u ∧
    ((t.pc = trunc32 (s.pc.toInt + off + 1) ∧ u.pc = trunc32 (s.pc.toInt + 1)) ∨
      (t.pc = trunc32 (s.pc.toInt + 1) ∧ u.pc = trunc32 (s.pc.toInt + off + 1))) ∧
    (a = b → t.pc = trunc32 (s.pc.toInt + off + 1))

/-- `jne` (R163): it branches when the flag is set and leaves the flag as it is (decision D12); nothing but `pc` changes. -/
def Obligations.JneTestsFlagOnly : Prop :=
  ∀ (s : State) (off : Int), ∃ t, exec (.jne off) s = .next t ∧
    (s.flag = true → t.pc = trunc32 (s.pc.toInt + off + 1)) ∧
    (s.flag = false → t.pc = trunc32 (s.pc.toInt + 1)) ∧
    t.flag = s.flag ∧ RegsSame s t [] ∧ ControlSame s t ∧ MemSame s t

/-- `jarl` (R164): equal contents link into `x[A]` without a jump, different ones link into `x[B]` and jump to the value `x[A]` had
(decision D11); where the parameter `JARL_EQ` is `index` the register numbers decide. -/
def Obligations.JarlLinksAndJumps : Prop :=
  ∀ (s : State) (a b : Reg) (eq : Prop),
    (eq ↔ if s.cfg.jarlEq = .value then s.reg a = s.reg b else a = b) →
    ∃ t, exec (.jarl a b) s = .next t ∧
      (eq → t.reg a = trunc32 (s.pc.toInt + 1) ∧ t.pc = trunc32 (s.pc.toInt + 1) ∧ RegsSame s t [a]) ∧
      (¬eq → t.reg b = trunc32 (s.pc.toInt + 1) ∧ t.pc = s.reg a ∧ RegsSame s t [b]) ∧
      ControlSame s t ∧ MemSame s t

/-- The two readings of `jarl` differ only when two different registers hold equal values (R164): elsewhere another setting of
`JARL_EQ` gives the same next state. -/
def Obligations.JarlReadingsAgree : Prop :=
  ∀ (s t : State) (a b : Reg) (c : Config), c = { s.cfg with jarlEq := c.jarlEq } → ¬(a ≠ b ∧ s.reg a = s.reg b) →
    exec (.jarl a b) s = .next t → exec (.jarl a b) { s with cfg := c } = .next { t with cfg := c }

/-- `halt` (R165): `pc` advances, `STATUS` becomes `HALTED`, and nothing else changes. From then on no step has a next state (decision D24;
that the model answers with a stop and not with the same state is log entry 6), and a step that runs `halt` counts it (decision D20). -/
def Obligations.HaltStops : Prop :=
  ∀ s : State, ∃ t, exec .halt s = .next t ∧ t.status = .halted ∧ PcAdvanced s t ∧
    RegsSame s t [] ∧ MemSame s t ∧ t.flag = s.flag ∧ t.stack = s.stack ∧
    t.cfg = s.cfg ∧ t.faultCause = s.faultCause ∧ t.faultInfo = s.faultInfo ∧ t.icount = s.icount ∧
    (∀ u, step t ≠ .next u) ∧
    (s.status = .running → s.fetch = .ok .halt → step s = .next { t with icount := s.icount + 1 })

/-! ## Bit-scan and stack -/

/-- `bsr` (R180): the number of 0 bits above the highest 1 bit, with the flag set; -1 with the flag clear when the register is
0. -/
def Obligations.BsrCountsFromTop : Prop :=
  ∀ (s : State) (a b : Reg), ∃ t, exec (.bsr a b) s = .next t ∧
    (s.reg a = 0 → t.reg b = 0xFFFFFFFF#32 ∧ t.flag = false) ∧
    (s.reg a ≠ 0 → t.flag = true ∧ ∃ k : Nat, k < 32 ∧ t.reg b = BitVec.ofNat 32 k ∧ (s.reg a).getLsbD (31 - k) = true ∧
      (∀ j < k, (s.reg a).getLsbD (31 - j) = false) ∧ k = 31 - Nat.log2 (s.reg a).toNat) ∧
    RegsSame s t [b] ∧ PcAdvanced s t ∧ t.stack = s.stack ∧ RecordSame s t ∧ MemSame s t

/-- `bsf` (R181): the bit number of the lowest 1 bit, with the flag set; -1 with the flag clear when the register is 0. On a value
with a single 1 bit its result and that of `bsr` sum to 31. -/
def Obligations.BsfCountsFromBottom : Prop :=
  ∀ (s : State) (a b : Reg), ∃ t, exec (.bsf a b) s = .next t ∧
    (s.reg a = 0 → t.reg b = 0xFFFFFFFF#32 ∧ t.flag = false) ∧
    (s.reg a ≠ 0 → t.flag = true ∧ ∃ k : Nat, k < 32 ∧ t.reg b = BitVec.ofNat 32 k ∧ (s.reg a).getLsbD k = true ∧
      ∀ j < k, (s.reg a).getLsbD j = false) ∧
    (∀ k < 32, s.reg a = BitVec.twoPow 32 k → ∃ u, exec (.bsr a b) s = .next u ∧
      (t.reg b).toNat = k ∧ (u.reg b).toNat = 31 - k ∧ (u.reg b).toNat + (t.reg b).toNat = 31) ∧
    RegsSame s t [b] ∧ PcAdvanced s t ∧ t.stack = s.stack ∧ RecordSame s t ∧ MemSame s t

/-- `push` (R182): `x[1]` becomes the top of the stack, every older entry keeps its place, or the fault `StackOverflow` with `pc` on a
full stack. That a fault changes nothing but the fault record is decision D13 (log entry 7). `SP` as a depth is decision D16, and that a
depth above 32, which no run reaches, counts as full is the model's choice (log entry 5). -/
def Obligations.PushStoresRegisterOne : Prop :=
  ∀ s : State,
    (s.sp < 32 → ∃ t, exec .push s = .next t ∧ t.sp = s.sp + 1 ∧ t.stk s.sp = some (s.reg 1) ∧
      (∀ k < s.sp, t.stk k = s.stk k) ∧
      RegsSame s t [] ∧ PcAdvanced s t ∧ t.flag = s.flag ∧ RecordSame s t ∧ MemSame s t) ∧
    (32 ≤ s.sp → ∃ t, exec .push s = .next t ∧ FaultedFrom s t .stackOverflow s.pc)

/-- `pop` (R183): the top of the stack leaves it for `x[1]`, every other entry keeps its place, or the fault `StackUnderflow` with `pc`
on an empty stack. That a fault changes nothing but the fault record is decision D13 (log entry 7). -/
def Obligations.PopLoadsRegisterOne : Prop :=
  ∀ s : State,
    (0 < s.sp → ∃ t, exec .pop s = .next t ∧ t.sp + 1 = s.sp ∧ some (t.reg 1) = s.stk t.sp ∧
      (∀ k < t.sp, t.stk k = s.stk k) ∧
      RegsSame s t [1] ∧ PcAdvanced s t ∧ t.flag = s.flag ∧ RecordSame s t ∧ MemSame s t) ∧
    (s.sp = 0 → ∃ t, exec .pop s = .next t ∧ FaultedFrom s t .stackUnderflow s.pc)

/-- A `pop` directly after a `push` restores the stack and leaves `x[1]` as it was (R183). -/
def Obligations.PopAfterPushRestores : Prop :=
  ∀ s : State, s.sp < 32 → ∃ t u, exec .push s = .next t ∧ exec .pop t = .next u ∧
    u.stack = s.stack ∧ RegsSame s u [] ∧ MemSame s u ∧ u.flag = s.flag ∧
    u.pc = trunc32 ((trunc32 (s.pc.toInt + 1)).toInt + 1)

/-! ## All instructions -/

/-- The table of R23: an instruction writes no register but those it names, and depends on no register but those it reads: another
value in a register it does not read changes nothing but that register. -/
def Obligations.RegisterFootprint : Prop :=
  ∀ (i : Instr) (s : State), ∃ t, exec i s = .next t ∧ RegsSame s t (writesOf i) ∧
    ∀ (r : Reg) (v : Word), r ∉ readsOf i → ∃ t', exec i (s.setReg r v) = .next t' ∧
      (∀ q, q ≠ r → t'.reg q = t.reg q) ∧ (t'.reg r = t.reg r ∨ (t'.reg r = v ∧ t.reg r = s.reg r)) ∧
      t'.pc = t.pc ∧ ControlSame t t' ∧ MemSame t t'

/-- How `pc` moves (R26): an instruction that is no control transfer and does not fault advances it by one, and one that faults leaves
it (decision D13, log entry 7). -/
def Obligations.OnlyBranchesMovePcElsewhere : Prop :=
  ∀ (i : Instr) (s t : State), exec i s = .next t → s.status ≠ .faulted →
    (t.status = .faulted → t.pc = s.pc) ∧
    (t.status ≠ .faulted → PcAdvanced s t ∨
      (∃ a b off, (i = .beq a b off ∨ i = .jmae a b off ∨ i = .jmnae a b off ∨ i = .jne off) ∧
        t.pc = trunc32 (s.pc.toInt + off + 1)) ∨
      (∃ a b, i = .jarl a b ∧ t.pc = s.reg a))

/-! ## The step -/

/-- A step runs the instruction decoded at `pc` (R15): the next state of the step is that of the instruction, counted unless it
faulted (decisions D13 and D20, log entries 7 and 8). -/
def Obligations.StepRunsDecoded : Prop :=
  ∀ (s t : State) (w : Word) (i : Instr), s.status = .running → s.memRead s.pc.toInt = some w →
    decode s.cfg.opc w = .ok i → exec i s = .next t →
    (t.status = .faulted → step s = .next t) ∧
    (t.status ≠ .faulted → step s = .next { t with icount := t.icount + 1 })

/-- The fetch and decode faults (R203, R206): `pc` outside memory is `MemOutOfBounds` with `pc`, a word that is no instruction is
`MalformedOpcode` with the word (decision D2 for bits 31:28, log entry 15). That nothing but the fault record changes is decision D13
(log entry 7). -/
def Obligations.FetchFaults : Prop :=
  ∀ s : State, s.status = .running →
    (¬(0 ≤ s.pc.toInt ∧ s.pc.toInt < s.cfg.memWords) →
      ∃ t, step s = .next t ∧ FaultedFrom s t .memOutOfBounds s.pc) ∧
    (∀ w, s.memRead s.pc.toInt = some w →
      (w.extractLsb' 28 4 ≠ 0 ∨ ∀ m, s.cfg.opc.code m ≠ w.extractLsb' 23 5) →
      ∃ t, step s = .next t ∧ FaultedFrom s t .malformedOpcode w)

/-- There is no step unless `STATUS` is `RUNNING` (R31, decision D24). That the model answers with a stop rather than the same state is
the model's choice (log entry 6). -/
def Obligations.NoStepAfterTheEnd : Prop :=
  ∀ s : State, (s.status = .halted → step s = .fault .halted) ∧ (s.status = .faulted → step s = .fault .faulted) ∧
    ∀ t, Reaches s t → s.status ≠ .running → t = s

/-- A running core is never stuck: its step always has a next state (U5). -/
def Obligations.RunningCoreAlwaysSteps : Prop :=
  ∀ s : State, s.status = .running → ∃ t, step s = .next t

/-- When a step faults, and with which cause and value: exactly on the conditions of the table of R201, and the cause and the value are
unique (R207); no other condition faults. The codes and values are decision D13, the order of the checks D14, bits 31:28 D2, the overflow
of `xidiv` D8, and a stack above 32, which no run reaches, counts as full by log entry 5. -/
def Obligations.StepFaultsExactly : Prop :=
  ∀ s : State, s.status = .running →
    (∀ c info, Raises s c info ↔ ∃ t, step s = .next t ∧ t.status = .faulted ∧ t.faultCause = c ∧ t.faultInfo = info) ∧
    (∀ c info c' info', Raises s c info → Raises s c' info' → c = c' ∧ info = info')

/-- Faults are precise (R208, R209, decision D13): a faulting step records its cause and changes nothing else, so it is not
counted. -/
def Obligations.FaultsArePrecise : Prop :=
  ∀ s t : State, step s = .next t → t.status = .faulted →
    FaultedFrom s t t.faultCause t.faultInfo ∧ t.faultCause ≠ .noFault

/-- `ICOUNT` (R33, decision D20): one more for every step that does not fault, `halt` included. -/
def Obligations.CompletedStepsAreCounted : Prop :=
  ∀ s t : State, step s = .next t → t.icount = if t.status = .faulted then s.icount else s.icount + 1

/-- What only some instructions write: the flag by `bsr` and `bsf` (R28; that `jne` leaves it is decision D12), the stack by `push` and
`pop` (R185), memory by `sw` (R53), `HALTED` by `halt` (R31). A step that faults leaves flag, stack and memory as they were (decision
D13, log entry 7). The parameters, no state by R40 and carried in the model's field `cfg` (log entry 1), are written by none. -/
def Obligations.WhoWritesWhat : Prop :=
  ∀ s t : State, step s = .next t →
    (t.flag ≠ s.flag → ∃ a b, s.fetch = .ok (.bsr a b) ∨ s.fetch = .ok (.bsf a b)) ∧
    (t.stack ≠ s.stack → s.fetch = .ok .push ∨ s.fetch = .ok .pop) ∧
    (t.mem ≠ s.mem → ∃ a b off, s.fetch = .ok (.sw a b off)) ∧
    (t.status = .halted ↔ s.fetch = .ok .halt) ∧
    (t.status = .faulted → t.flag = s.flag ∧ t.stack = s.stack ∧ t.mem = s.mem) ∧
    t.cfg = s.cfg

/-- Every step keeps the legal states legal: an admitted configuration, memory in canonical form and in bounds, at most 32 stack
entries (log entry 5), and a fault record that agrees with `STATUS` (decision D13, log entry 7). -/
def Obligations.StepKeepsInv : Prop :=
  ∀ s t : State, s.Inv → step s = .next t → t.Inv

/-- Reset and launch states are legal, under every admitted configuration. That the fault record is empty and `STATUS` is `RUNNING` at
reset is decision D13 (log entry 16), and the parameters of `State.reset` are chosen defaults (log entry 2). -/
def Obligations.ResetAndLaunchAreLegal : Prop :=
  State.reset.Inv ∧ ∀ (c : Config), c.legal = true →
    (State.resetWith c).Inv ∧ ∀ (program : List Word) (s : State), State.launch c program = some s → s.Inv

/-- A store to the next word is seen by the next fetch (R65, decision D18). -/
def Obligations.StoreIsSeenByNextFetch : Prop :=
  ∀ (s t : State) (a b : Reg) (off : Int), s.cfg.memWordsLegal = true → step s = .next t →
    s.fetch = .ok (.sw a b off) → s.ea a off = s.pc.toInt + 1 → s.ea a off < s.cfg.memWords →
    t.status = .running ∧ t.memRead t.pc.toInt = some (s.reg b) ∧
      ∀ i, decode s.cfg.opc (s.reg b) = .ok i → t.fetch = .ok i

/-- The memory interface (R68, decision D19): a step that does not fault issues the read of its instruction word at `pc`, then for `lw`
the read of the loaded word at its address, for `sw` the write of `x[B]` at its address, and for any other instruction nothing. A
faulting step issues at most its fetch. What the reads return is memory before the step, at addresses that exist; what the step changes
in memory is its write. -/
def Obligations.StepTransactions : Prop :=
  ∀ s t : State, step s = .next t →
    (∀ (a : Nat) v, .read a v ∈ s.transactions → s.memRead a = some v) ∧
    (∀ (a : Nat) v, .write a v ∈ s.transactions → t.memRead a = some v) ∧
    (∀ a : Nat, t.memRead a ≠ s.memRead a → ∃ v, .write a v ∈ s.transactions) ∧
    (t.status = .faulted → s.transactions = s.readTransaction s.pc.toInt ∧ s.transactions.length ≤ 1) ∧
    (t.status ≠ .faulted → ∃ w, s.memRead s.pc.toInt = some w ∧
      (∀ a b off, s.fetch = .ok (.lw a b off) → ∃ v, s.memRead (s.ea a off) = some v ∧ 0 ≤ s.ea a off ∧
        s.transactions = [.read s.pc.toInt.toNat w, .read (s.ea a off).toNat v]) ∧
      (∀ a b off, s.fetch = .ok (.sw a b off) → 0 ≤ s.ea a off ∧
        s.transactions = [.read s.pc.toInt.toNat w, .write (s.ea a off).toNat (s.reg b)]) ∧
      ((∀ a b off, s.fetch ≠ .ok (.lw a b off) ∧ s.fetch ≠ .ok (.sw a b off)) →
        s.transactions = [.read s.pc.toInt.toNat w]))

/-! ## Addresses -/

/-- The sums `pc + 1` and `pc + off + 1` never wrap while an instruction executes (R27, decisions D15 and D26, log entry 13). -/
def Obligations.PcSumsDoNotWrap : Prop :=
  ∀ (s : State) (off : Int), s.cfg.memWordsLegal = true → 0 ≤ s.pc.toInt → s.pc.toInt < s.cfg.memWords →
    offsetInRange off = true →
    s.advance.pc.toInt = s.pc.toInt + 1 ∧ (s.branchTarget off).toInt = s.pc.toInt + off + 1 ∧
      -16383 ≤ (s.branchTarget off).toInt

/-- A 32-bit wrapping effective address is in memory exactly when the mathematical one is, and is then the same (R59,
decision D26). -/
def Obligations.WrappedAddressAgrees : Prop :=
  ∀ (s : State) (a : Reg) (off : Int), s.cfg.memWordsLegal = true → offsetInRange off = true →
    (s.inMemory (s.ea a off) = true ↔ s.inMemory (s.reg a + sext32 (offField off)).toInt = true) ∧
    (s.inMemory (s.ea a off) = true → (s.reg a + sext32 (offField off)).toInt = s.ea a off)

/-! ## Runs -/

/-- A bounded run (R250): it is never stuck; it ends as halted under some bound exactly when the run completes there, as faulted under
some bound exactly when the run reaches that faulted state, and otherwise its bound is used up and the core it leaves still runs; a
larger bound gives a run that has ended the same end. The outcomes of a bounded run are the model's (log entry 18). -/
def Obligations.BoundedRuns : Prop :=
  ∀ s : State,
    (∀ n t, run n s ≠ .stuck t) ∧
    (∀ t, Completes s t ↔ ∃ n, run n s = .halted t) ∧
    (∀ t, (Reaches s t ∧ t.status = .faulted) ↔ ∃ n, run n s = .faulted t) ∧
    (∀ n t, run n s = .outOfFuel t → t.status = .running ∧ Reaches s t) ∧
    (∀ n m t, n ≤ m → run n s = .halted t → run m s = .halted t) ∧
    (∀ n m t, n ≤ m → run n s = .faulted t → run m s = .faulted t)

/-- Every state a run from a launch state reaches is legal; the fault record at launch and after a fault is decision D13 (log entries 7
and 16). -/
def Obligations.ReachableStatesAreLegal : Prop :=
  ∀ (c : Config) (program : List Word) (s t : State), c.legal = true → State.launch c program = some s →
    Reaches s t → t.Inv

/-! ## Assembly -/

/-- A label's offset takes a taken branch to the label (R103, R166): for the four PC-relative instructions at address `here`; for `lw`
and `sw` the field is the label's own address. -/
def Obligations.LabelOffsetReachesLabel : Prop :=
  ∀ (labels : Asm.Labels) (m : Mnemonic) (name : Asm.Text) (target here : Nat) (off : Int) (s : State),
    labels.address name = .ok target → Asm.resolve labels m here (.sym name) = .ok off →
    offsetInRange off = true ∧
    (m = .beq ∨ m = .jmae ∨ m = .jmnae ∨ m = .jne → s.pc.toInt = here → s.branchTarget off = trunc32 target) ∧
    (m = .lw ∨ m = .sw → off = target)

/-- An assembled program has one word for every source line and fits memory (R97, R106). -/
def Obligations.AssembledProgramFits : Prop :=
  ∀ (c : Config) (source : List Asm.Text) (words : List Word), Asm.assemble c source = .ok words →
    words.length = source.length ∧ ∃ s, State.launch c words = some s

/-! ## The program file -/

/-- The program file (R95): its text has one line per word, each a decimal integer whose value is the word as a 32-bit signed integer,
and does not end in a newline; reading it gives the words back, and its launch state has word `i` at address `i`. How an integer is
spelled, written and read, is the model's choice (log entry 23), and so is that a text of no characters is the program of no words (log
entry 17). -/
def Obligations.ProgramFileRoundTrip : Prop :=
  ∀ (c : Config) (words : List Word),
    (words ≠ [] → Asm.cut '\n' (fileText words) = fileLines words) ∧
    (fileLines words).map Asm.parseInt = words.map (fun w => some w.toInt) ∧
    (fileText words).getLast? ≠ some '\n' ∧
    readFile (fileText words) = some words ∧
    (words.length ≤ c.memWords → ∃ s, State.launchFile c (fileText words) = some s ∧
      ∀ (i : Nat) (h : i < words.length), s.memRead i = some words[i])

/-- What a readable program file holds (R95): every line a decimal integer in the signed 32-bit range, which is its word's value; a text
that ends in a newline is refused, as U14 treats a malformed file (log entry 17), and so is any text with a line that is no such integer.
Which spellings are a decimal integer is the model's choice (log entry 23). -/
def Obligations.ProgramFileIsChecked : Prop :=
  ∀ text : Asm.Text,
    readFile (text ++ ['\n']) = none ∧
    (∀ words, readFile text = some words → text ≠ [] →
      (Asm.cut '\n' text).map Asm.parseInt = words.map (fun w => some w.toInt)) ∧
    (∀ line ∈ Asm.cut '\n' text, text ≠ [] →
      (∀ n, Asm.parseInt line = some n → ¬(-2 ^ 31 ≤ n ∧ n ≤ 2 ^ 31 - 1)) → readFile text = none)
end

