-- ==== Sys2Proof/Laws/Decode.lean ====
section
/-! SUPPORT. The laws of the decoder and the encoder: the opcode map's lookup, the fields of an encoded word, and the
sign-extended offset. -/

namespace Sys2Proof

/-! ## The opcode map -/

theorem Mnemonic.mem_all (m : Mnemonic) : m ∈ Mnemonic.all := by cases m <;> decide

/-- An injective map gives no opcode to two mnemonics. -/
theorem OpcMap.code_inj {o : OpcMap} (h : o.injective = true) {m n : Mnemonic} (e : o.code m = o.code n) : m = n :=
  List.inj_on_of_nodup_map (of_decide_eq_true h) m.mem_all n.mem_all e

theorem OpcMap.code_of_lookup {o : OpcMap} {op : BitVec 5} {m : Mnemonic} (h : o.lookup op = some m) : o.code m = op := by
  simpa using List.find?_some h

/-- Under an injective map the lookup inverts `code`. -/
theorem OpcMap.lookup_code {o : OpcMap} (h : o.injective = true) (m : Mnemonic) : o.lookup (o.code m) = some m := by
  cases e : o.lookup (o.code m) with
  | none =>
    have := List.find?_eq_none.1 e m m.mem_all
    simp at this
  | some n => exact congrArg some (OpcMap.code_inj h (OpcMap.code_of_lookup e))

theorem OpcMap.lookup_eq_none {o : OpcMap} {op : BitVec 5} : o.lookup op = none ↔ ∀ m, o.code m ≠ op := by
  simp only [OpcMap.lookup, List.find?_eq_none, beq_iff_eq]
  exact ⟨fun h m => h m m.mem_all, fun h m _ => h m⟩

/-! ## What `decode` can answer -/

theorem decode_eq_ok {o : OpcMap} {w : Word} {i : Instr} :
    decode o w = .ok i ↔
      fieldTop w = 0#4 ∧ ∃ m, o.lookup (fieldOp w) = some m ∧
        i = .ofFields m (fieldA w) (fieldB w) (fieldC w) (fieldOff w) := by
  unfold decode
  split
  · next h => simp [h]
  · next h =>
    cases e : o.lookup (fieldOp w) with
    | none => simp
    | some m => simp [not_not.1 h, eq_comm]

theorem decode_eq_error {o : OpcMap} {w : Word} :
    (∃ e, decode o w = .error e) ↔ fieldTop w ≠ 0#4 ∨ o.lookup (fieldOp w) = none := by
  unfold decode
  split
  · next h => simp [h]
  · next h =>
    cases e : o.lookup (fieldOp w) with
    | none => simp
    | some m => simpa using h

@[simp] theorem mnemonic_ofFields (m : Mnemonic) (a b c : Reg) (off : Int) :
    (Instr.ofFields m a b c off).mnemonic = m := by
  cases m <;> rfl

/-! ## The fields of an encoded word -/

section fields

variable (op : BitVec 5) (a b : Reg) (f : BitVec 15)

/-- The encoded word as a number (R92). -/
theorem toNat_encodeFields :
    (encodeFields op a b f).toNat = op.toNat * 2 ^ 23 + a.val * 2 ^ 19 + b.val * 2 ^ 15 + f.toNat := by
  have hop := op.isLt
  have ha := a.isLt
  have hb := b.isLt
  have hf := f.isLt
  have e1 : ((op.setWidth 32 <<< 23 : Word)).toNat = op.toNat * 2 ^ 23 := by
    simp [BitVec.toNat_shiftLeft, Nat.shiftLeft_eq]
    omega
  have e2 : (((regField a).setWidth 32 <<< 19 : Word)).toNat = a.val * 2 ^ 19 := by
    simp [BitVec.toNat_shiftLeft, Nat.shiftLeft_eq, regField]
    omega
  have e3 : (((regField b).setWidth 32 <<< 15 : Word)).toNat = b.val * 2 ^ 15 := by
    simp [BitVec.toNat_shiftLeft, Nat.shiftLeft_eq, regField]
    omega
  have e4 : ((f.setWidth 32 : Word)).toNat = f.toNat := by
    simp
    omega
  simp only [encodeFields, BitVec.toNat_or, e1, e2, e3, e4]
  have o1 : op.toNat * 2 ^ 23 ||| a.val * 2 ^ 19 = op.toNat * 2 ^ 23 + a.val * 2 ^ 19 := by
    have := Nat.two_pow_add_eq_or_of_lt (i := 23) (b := a.val * 2 ^ 19) (by omega) op.toNat
    rw [Nat.mul_comm op.toNat, this]
  have o2 : (op.toNat * 2 ^ 23 + a.val * 2 ^ 19) ||| b.val * 2 ^ 15 =
      op.toNat * 2 ^ 23 + a.val * 2 ^ 19 + b.val * 2 ^ 15 := by
    have := Nat.two_pow_add_eq_or_of_lt (i := 19) (b := b.val * 2 ^ 15) (by omega) (op.toNat * 2 ^ 4 + a.val)
    rw [show op.toNat * 2 ^ 23 + a.val * 2 ^ 19 = 2 ^ 19 * (op.toNat * 2 ^ 4 + a.val) by omega, this]
  have o3 : (op.toNat * 2 ^ 23 + a.val * 2 ^ 19 + b.val * 2 ^ 15) ||| f.toNat =
      op.toNat * 2 ^ 23 + a.val * 2 ^ 19 + b.val * 2 ^ 15 + f.toNat := by
    have := Nat.two_pow_add_eq_or_of_lt (i := 15) hf (op.toNat * 2 ^ 8 + a.val * 2 ^ 4 + b.val)
    rw [show op.toNat * 2 ^ 23 + a.val * 2 ^ 19 + b.val * 2 ^ 15 =
      2 ^ 15 * (op.toNat * 2 ^ 8 + a.val * 2 ^ 4 + b.val) by omega, this]
  rw [o1, o2, o3]

theorem fieldTop_encodeFields : fieldTop (encodeFields op a b f) = 0#4 := by
  have hop := op.isLt
  have ha := a.isLt
  have hb := b.isLt
  have hf := f.isLt
  apply BitVec.eq_of_toNat_eq
  simp only [fieldTop, BitVec.extractLsb'_toNat, toNat_encodeFields, Nat.shiftRight_eq_div_pow, BitVec.toNat_ofNat]
  omega

theorem fieldOp_encodeFields : fieldOp (encodeFields op a b f) = op := by
  have hop := op.isLt
  have ha := a.isLt
  have hb := b.isLt
  have hf := f.isLt
  apply BitVec.eq_of_toNat_eq
  simp only [fieldOp, BitVec.extractLsb'_toNat, toNat_encodeFields, Nat.shiftRight_eq_div_pow]
  omega

theorem fieldA_encodeFields : fieldA (encodeFields op a b f) = a := by
  have hop := op.isLt
  have ha := a.isLt
  have hb := b.isLt
  have hf := f.isLt
  apply Fin.ext
  simp only [fieldA, BitVec.val_toFin, BitVec.extractLsb'_toNat, toNat_encodeFields, Nat.shiftRight_eq_div_pow]
  omega

theorem fieldB_encodeFields : fieldB (encodeFields op a b f) = b := by
  have hop := op.isLt
  have ha := a.isLt
  have hb := b.isLt
  have hf := f.isLt
  apply Fin.ext
  simp only [fieldB, BitVec.val_toFin, BitVec.extractLsb'_toNat, toNat_encodeFields, Nat.shiftRight_eq_div_pow]
  omega

theorem fieldC_encodeFields (c : Reg) : fieldC (encodeFields op a b (regF c)) = c := by
  have hop := op.isLt
  have ha := a.isLt
  have hb := b.isLt
  have hc := c.isLt
  have hf : (regF c).toNat = c.val := by simp [regF, regField]; omega
  apply Fin.ext
  simp only [fieldC, BitVec.val_toFin, BitVec.extractLsb'_toNat, toNat_encodeFields, Nat.shiftRight_eq_div_pow, hf]
  omega

theorem low_encodeFields : (encodeFields op a b f).extractLsb' 0 15 = f := by
  have hop := op.isLt
  have ha := a.isLt
  have hb := b.isLt
  have hf := f.isLt
  apply BitVec.eq_of_toNat_eq
  simp only [BitVec.extractLsb'_toNat, toNat_encodeFields, Nat.shiftRight_eq_div_pow]
  omega

end fields

/-! ## The offset -/

@[simp] theorem toInt_sext32 (f : BitVec 15) : (sext32 f).toInt = f.toInt :=
  BitVec.toInt_signExtend_of_le (by decide)

/-- The decoded offset is the field read in two's complement. -/
theorem fieldOff_eq (w : Word) : fieldOff w = (w.extractLsb' 0 15).toInt := toInt_sext32 _

theorem toInt_offField {off : Int} (h : offsetInRange off = true) : (offField off).toInt = off := by
  simp only [offsetInRange, Bool.and_eq_true, decide_eq_true_eq] at h
  rw [offField, BitVec.toInt_ofInt]
  exact Int.bmod_eq_of_le (by omega) (by omega)

theorem fieldOff_encodeFields (op : BitVec 5) (a b : Reg) {off : Int} (h : offsetInRange off = true) :
    fieldOff (encodeFields op a b (offField off)) = off := by
  rw [fieldOff_eq, low_encodeFields, toInt_offField h]

/-- Every decoded offset is one the field can hold. -/
theorem offsetInRange_fieldOff (w : Word) : offsetInRange (fieldOff w) = true := by
  have h1 := BitVec.le_toInt (w.extractLsb' 0 15)
  have h2 := BitVec.toInt_lt (x := w.extractLsb' 0 15)
  rw [fieldOff_eq]
  simp only [offsetInRange, Bool.and_eq_true, decide_eq_true_eq]
  omega

end Sys2Proof
end

