-- ==== Sys2Proof/Laws/State.lean ====
section
/-! SUPPORT. One lemma per field per update of the state, and reading a register after writing one. -/

namespace Sys2Proof.Machine

variable (s : State)

/-! ## `setReg` -/

@[simp] theorem State.setReg_cfg (r : Reg) (v : Word) : (s.setReg r v).cfg = s.cfg := rfl
@[simp] theorem State.setReg_regs (r : Reg) (v : Word) : (s.setReg r v).regs = s.regs.set r v := rfl
@[simp] theorem State.setReg_pc (r : Reg) (v : Word) : (s.setReg r v).pc = s.pc := rfl
@[simp] theorem State.setReg_flag (r : Reg) (v : Word) : (s.setReg r v).flag = s.flag := rfl
@[simp] theorem State.setReg_stack (r : Reg) (v : Word) : (s.setReg r v).stack = s.stack := rfl
@[simp] theorem State.setReg_status (r : Reg) (v : Word) : (s.setReg r v).status = s.status := rfl
@[simp] theorem State.setReg_faultCause (r : Reg) (v : Word) : (s.setReg r v).faultCause = s.faultCause := rfl
@[simp] theorem State.setReg_faultInfo (r : Reg) (v : Word) : (s.setReg r v).faultInfo = s.faultInfo := rfl
@[simp] theorem State.setReg_icount (r : Reg) (v : Word) : (s.setReg r v).icount = s.icount := rfl
@[simp] theorem State.setReg_mem (r : Reg) (v : Word) : (s.setReg r v).mem = s.mem := rfl

/-! ## `advance` -/

@[simp] theorem State.advance_cfg : s.advance.cfg = s.cfg := rfl
@[simp] theorem State.advance_regs : s.advance.regs = s.regs := rfl
@[simp] theorem State.advance_pc : s.advance.pc = trunc32 (s.pc.toInt + 1) := rfl
@[simp] theorem State.advance_flag : s.advance.flag = s.flag := rfl
@[simp] theorem State.advance_stack : s.advance.stack = s.stack := rfl
@[simp] theorem State.advance_status : s.advance.status = s.status := rfl
@[simp] theorem State.advance_faultCause : s.advance.faultCause = s.faultCause := rfl
@[simp] theorem State.advance_faultInfo : s.advance.faultInfo = s.faultInfo := rfl
@[simp] theorem State.advance_icount : s.advance.icount = s.icount := rfl
@[simp] theorem State.advance_mem : s.advance.mem = s.mem := rfl

/-! ## `jump` -/

@[simp] theorem State.jump_cfg (t : Word) : (s.jump t).cfg = s.cfg := rfl
@[simp] theorem State.jump_regs (t : Word) : (s.jump t).regs = s.regs := rfl
@[simp] theorem State.jump_pc (t : Word) : (s.jump t).pc = t := rfl
@[simp] theorem State.jump_flag (t : Word) : (s.jump t).flag = s.flag := rfl
@[simp] theorem State.jump_stack (t : Word) : (s.jump t).stack = s.stack := rfl
@[simp] theorem State.jump_status (t : Word) : (s.jump t).status = s.status := rfl
@[simp] theorem State.jump_faultCause (t : Word) : (s.jump t).faultCause = s.faultCause := rfl
@[simp] theorem State.jump_faultInfo (t : Word) : (s.jump t).faultInfo = s.faultInfo := rfl
@[simp] theorem State.jump_icount (t : Word) : (s.jump t).icount = s.icount := rfl
@[simp] theorem State.jump_mem (t : Word) : (s.jump t).mem = s.mem := rfl

/-! ## `setFlag` -/

@[simp] theorem State.setFlag_cfg (b : Bool) : (s.setFlag b).cfg = s.cfg := rfl
@[simp] theorem State.setFlag_regs (b : Bool) : (s.setFlag b).regs = s.regs := rfl
@[simp] theorem State.setFlag_pc (b : Bool) : (s.setFlag b).pc = s.pc := rfl
@[simp] theorem State.setFlag_flag (b : Bool) : (s.setFlag b).flag = b := rfl
@[simp] theorem State.setFlag_stack (b : Bool) : (s.setFlag b).stack = s.stack := rfl
@[simp] theorem State.setFlag_status (b : Bool) : (s.setFlag b).status = s.status := rfl
@[simp] theorem State.setFlag_faultCause (b : Bool) : (s.setFlag b).faultCause = s.faultCause := rfl
@[simp] theorem State.setFlag_faultInfo (b : Bool) : (s.setFlag b).faultInfo = s.faultInfo := rfl
@[simp] theorem State.setFlag_icount (b : Bool) : (s.setFlag b).icount = s.icount := rfl
@[simp] theorem State.setFlag_mem (b : Bool) : (s.setFlag b).mem = s.mem := rfl

/-! ## `raise` -/

@[simp] theorem State.raise_cfg (c : FaultCause) (info : Word) : (s.raise c info).cfg = s.cfg := rfl
@[simp] theorem State.raise_regs (c : FaultCause) (info : Word) : (s.raise c info).regs = s.regs := rfl
@[simp] theorem State.raise_pc (c : FaultCause) (info : Word) : (s.raise c info).pc = s.pc := rfl
@[simp] theorem State.raise_flag (c : FaultCause) (info : Word) : (s.raise c info).flag = s.flag := rfl
@[simp] theorem State.raise_stack (c : FaultCause) (info : Word) : (s.raise c info).stack = s.stack := rfl
@[simp] theorem State.raise_status (c : FaultCause) (info : Word) : (s.raise c info).status = .faulted := rfl
@[simp] theorem State.raise_faultCause (c : FaultCause) (info : Word) : (s.raise c info).faultCause = c := rfl
@[simp] theorem State.raise_faultInfo (c : FaultCause) (info : Word) : (s.raise c info).faultInfo = info := rfl
@[simp] theorem State.raise_icount (c : FaultCause) (info : Word) : (s.raise c info).icount = s.icount := rfl
@[simp] theorem State.raise_mem (c : FaultCause) (info : Word) : (s.raise c info).mem = s.mem := rfl

/-! ## `setMem` -/

@[simp] theorem State.setMem_cfg (m : Memory) : (s.setMem m).cfg = s.cfg := rfl
@[simp] theorem State.setMem_regs (m : Memory) : (s.setMem m).regs = s.regs := rfl
@[simp] theorem State.setMem_pc (m : Memory) : (s.setMem m).pc = s.pc := rfl
@[simp] theorem State.setMem_flag (m : Memory) : (s.setMem m).flag = s.flag := rfl
@[simp] theorem State.setMem_stack (m : Memory) : (s.setMem m).stack = s.stack := rfl
@[simp] theorem State.setMem_status (m : Memory) : (s.setMem m).status = s.status := rfl
@[simp] theorem State.setMem_faultCause (m : Memory) : (s.setMem m).faultCause = s.faultCause := rfl
@[simp] theorem State.setMem_faultInfo (m : Memory) : (s.setMem m).faultInfo = s.faultInfo := rfl
@[simp] theorem State.setMem_icount (m : Memory) : (s.setMem m).icount = s.icount := rfl
@[simp] theorem State.setMem_mem (m : Memory) : (s.setMem m).mem = m := rfl

/-! ## `setStack` -/

@[simp] theorem State.setStack_cfg (l : List Word) : (s.setStack l).cfg = s.cfg := rfl
@[simp] theorem State.setStack_regs (l : List Word) : (s.setStack l).regs = s.regs := rfl
@[simp] theorem State.setStack_pc (l : List Word) : (s.setStack l).pc = s.pc := rfl
@[simp] theorem State.setStack_flag (l : List Word) : (s.setStack l).flag = s.flag := rfl
@[simp] theorem State.setStack_stack (l : List Word) : (s.setStack l).stack = l := rfl
@[simp] theorem State.setStack_status (l : List Word) : (s.setStack l).status = s.status := rfl
@[simp] theorem State.setStack_faultCause (l : List Word) : (s.setStack l).faultCause = s.faultCause := rfl
@[simp] theorem State.setStack_faultInfo (l : List Word) : (s.setStack l).faultInfo = s.faultInfo := rfl
@[simp] theorem State.setStack_icount (l : List Word) : (s.setStack l).icount = s.icount := rfl
@[simp] theorem State.setStack_mem (l : List Word) : (s.setStack l).mem = s.mem := rfl

/-! ## `setStatus` -/

@[simp] theorem State.setStatus_cfg (st : Status) : (s.setStatus st).cfg = s.cfg := rfl
@[simp] theorem State.setStatus_regs (st : Status) : (s.setStatus st).regs = s.regs := rfl
@[simp] theorem State.setStatus_pc (st : Status) : (s.setStatus st).pc = s.pc := rfl
@[simp] theorem State.setStatus_flag (st : Status) : (s.setStatus st).flag = s.flag := rfl
@[simp] theorem State.setStatus_stack (st : Status) : (s.setStatus st).stack = s.stack := rfl
@[simp] theorem State.setStatus_status (st : Status) : (s.setStatus st).status = st := rfl
@[simp] theorem State.setStatus_faultCause (st : Status) : (s.setStatus st).faultCause = s.faultCause := rfl
@[simp] theorem State.setStatus_faultInfo (st : Status) : (s.setStatus st).faultInfo = s.faultInfo := rfl
@[simp] theorem State.setStatus_icount (st : Status) : (s.setStatus st).icount = s.icount := rfl
@[simp] theorem State.setStatus_mem (st : Status) : (s.setStatus st).mem = s.mem := rfl

/-! ## `tick` -/

@[simp] theorem State.tick_cfg : s.tick.cfg = s.cfg := rfl
@[simp] theorem State.tick_regs : s.tick.regs = s.regs := rfl
@[simp] theorem State.tick_pc : s.tick.pc = s.pc := rfl
@[simp] theorem State.tick_flag : s.tick.flag = s.flag := rfl
@[simp] theorem State.tick_stack : s.tick.stack = s.stack := rfl
@[simp] theorem State.tick_status : s.tick.status = s.status := rfl
@[simp] theorem State.tick_faultCause : s.tick.faultCause = s.faultCause := rfl
@[simp] theorem State.tick_faultInfo : s.tick.faultInfo = s.faultInfo := rfl
@[simp] theorem State.tick_icount : s.tick.icount = s.icount + 1 := rfl
@[simp] theorem State.tick_mem : s.tick.mem = s.mem := rfl

/-! ## Reading a register after an update -/

@[simp] theorem State.reg_setReg_self (r : Reg) (v : Word) : (s.setReg r v).reg r = v := by
  simp [State.reg]

theorem State.reg_setReg_of_ne {r q : Reg} (v : Word) (h : q ≠ r) : (s.setReg r v).reg q = s.reg q := by
  have h' : (r : Nat) ≠ q := fun e => h (Fin.ext e.symm)
  simp [State.reg, Vector.getElem_set_ne, h']

theorem State.reg_setReg (r q : Reg) (v : Word) : (s.setReg r v).reg q = if q = r then v else s.reg q := by
  split
  · next h => rw [h, State.reg_setReg_self]
  · next h => exact s.reg_setReg_of_ne v h

@[simp] theorem State.reg_advance (q : Reg) : s.advance.reg q = s.reg q := (rfl)
@[simp] theorem State.reg_jump (t : Word) (q : Reg) : (s.jump t).reg q = s.reg q := (rfl)
@[simp] theorem State.reg_setFlag (b : Bool) (q : Reg) : (s.setFlag b).reg q = s.reg q := (rfl)
@[simp] theorem State.reg_raise (c : FaultCause) (info : Word) (q : Reg) : (s.raise c info).reg q = s.reg q := (rfl)
@[simp] theorem State.reg_setMem (m : Memory) (q : Reg) : (s.setMem m).reg q = s.reg q := (rfl)
@[simp] theorem State.reg_setStack (l : List Word) (q : Reg) : (s.setStack l).reg q = s.reg q := (rfl)
@[simp] theorem State.reg_tick (q : Reg) : s.tick.reg q = s.reg q := (rfl)
@[simp] theorem State.reg_setStatus (st : Status) (q : Reg) : (s.setStatus st).reg q = s.reg q := (rfl)

/-! ## Reading memory after an update that leaves it alone -/

@[simp] theorem State.memRead_setReg (r : Reg) (v : Word) (a : Int) : (s.setReg r v).memRead a = s.memRead a := (rfl)
@[simp] theorem State.memRead_advance (a : Int) : s.advance.memRead a = s.memRead a := (rfl)
@[simp] theorem State.memRead_jump (t : Word) (a : Int) : (s.jump t).memRead a = s.memRead a := (rfl)
@[simp] theorem State.memRead_setFlag (b : Bool) (a : Int) : (s.setFlag b).memRead a = s.memRead a := (rfl)
@[simp] theorem State.memRead_raise (c : FaultCause) (info : Word) (a : Int) :
    (s.raise c info).memRead a = s.memRead a := (rfl)

@[simp] theorem State.memRead_setStack (l : List Word) (a : Int) : (s.setStack l).memRead a = s.memRead a := (rfl)
@[simp] theorem State.memRead_tick (a : Int) : s.tick.memRead a = s.memRead a := (rfl)
@[simp] theorem State.memRead_setStatus (st : Status) (a : Int) : (s.setStatus st).memRead a = s.memRead a := (rfl)

/-! ## The effective address after an update that leaves the registers alone -/

@[simp] theorem State.ea_advance (r : Reg) (off : Int) : s.advance.ea r off = s.ea r off := (rfl)
@[simp] theorem State.ea_setMem (m : Memory) (r : Reg) (off : Int) : (s.setMem m).ea r off = s.ea r off := (rfl)

/-! ## The branch and the register exchange -/

/-- A conditional branch changes `pc` only. -/
theorem State.branchIf_eq (taken : Bool) (off : Int) :
    s.branchIf taken off = { s with pc := if taken then s.branchTarget off else trunc32 (s.pc.toInt + 1) } := by
  cases taken <;> rfl

/-- The exchange gives each of the two registers the other's contents, and is the identity on one register. -/
theorem State.reg_exchange (a b q : Reg) :
    (s.exchange a b).reg q = if q = a then s.reg b else if q = b then s.reg a else s.reg q := by
  simp only [State.exchange, State.reg_setReg]
  by_cases ha : q = a <;> by_cases hb : q = b <;> simp_all

/-! ## The count at the end of a step -/

theorem State.count_of_ne {s : State} (h : s.status ≠ .faulted) : s.count = s.tick := if_neg h

@[simp] theorem State.count_raise (c : FaultCause) (info : Word) : (s.raise c info).count = s.raise c info := if_pos rfl

end Sys2Proof.Machine
end

