-- ==== Sys2Proof/Laws/Memory.lean ====
section
/-! SUPPORT. The laws of memory: what a read gives after a write, that every operation keeps the canonical form, and that equal
contents are equal data. -/

namespace Sys2Proof.Machine

/-! ## Reading after erasing, inserting, writing -/

theorem Memory.read_erase (m : Memory) (a b : Nat) :
    (m.erase a).read b = if b = a then Config.memFill else m.read b := by
  induction m with
  | nil => simp [Memory.erase, Memory.read]
  | cons p m ih =>
    obtain ⟨k, w⟩ := p
    by_cases hk : a = k <;> by_cases hb : b = k <;> by_cases hab : b = a <;>
      simp_all [Memory.erase, Memory.read]

theorem Memory.read_insert (m : Memory) (a b : Nat) (v : Word) :
    (m.insert a v).read b = if b = a then v else m.read b := by
  induction m with
  | nil => simp [Memory.insert, Memory.read]
  | cons p m ih =>
    obtain ⟨k, w⟩ := p
    simp only [Memory.insert]
    split
    · simp [Memory.read]
    · split
      · next hk => subst hk; by_cases hb : b = a <;> simp [Memory.read, hb]
      · next hk =>
        simp only [Memory.read, ih]
        by_cases hb : b = k
        · have : b ≠ a := fun e => hk (e ▸ hb)
          simp [hb, Ne.symm hk]
        · simp [hb]

/-- A read after a write: the written word at its address, the old word everywhere else (R53). -/
theorem Memory.read_write (m : Memory) (a b : Nat) (v : Word) :
    (m.write a v).read b = if b = a then v else m.read b := by
  unfold Memory.write
  split
  · next h => rw [Memory.read_erase, h]
  · exact m.read_insert a b v

@[simp] theorem Memory.read_write_self (m : Memory) (a : Nat) (v : Word) : (m.write a v).read a = v := by
  simp [Memory.read_write]

theorem Memory.read_write_of_ne (m : Memory) {a b : Nat} (v : Word) (h : b ≠ a) : (m.write a v).read b = m.read b := by
  simp [Memory.read_write, h]

/-! ## The canonical form -/

theorem Memory.wfFrom_mono {lo lo' : Nat} (h : lo' ≤ lo) (m : Memory) (wf : m.wfFrom lo) : Memory.wfFrom lo' m := by
  cases m with
  | nil => rfl
  | cons p m =>
    simp only [Memory.wfFrom, Bool.and_eq_true, decide_eq_true_eq] at wf ⊢
    exact ⟨⟨h.trans wf.1.1, wf.1.2⟩, wf.2⟩

theorem Memory.wfFrom_erase (m : Memory) (a lo : Nat) (wf : m.wfFrom lo) : (m.erase a).wfFrom lo := by
  induction m generalizing lo with
  | nil => rfl
  | cons p m ih =>
    simp only [Memory.wfFrom, Bool.and_eq_true, decide_eq_true_eq] at wf
    simp only [Memory.erase]
    split
    · exact Memory.wfFrom_mono (by omega) _ (ih _ wf.2)
    · simp only [Memory.wfFrom, Bool.and_eq_true, decide_eq_true_eq]
      exact ⟨wf.1, ih _ wf.2⟩

theorem Memory.wfFrom_insert (m : Memory) {a lo : Nat} {v : Word} (ha : lo ≤ a) (hv : v ≠ Config.memFill)
    (wf : m.wfFrom lo) : (m.insert a v).wfFrom lo := by
  induction m generalizing lo with
  | nil => simp [Memory.insert, Memory.wfFrom, ha, hv]
  | cons p m ih =>
    obtain ⟨k, w⟩ := p
    simp only [Memory.wfFrom, Bool.and_eq_true, decide_eq_true_eq] at wf
    simp only [Memory.insert]
    split
    · simp only [Memory.wfFrom, Bool.and_eq_true, decide_eq_true_eq]
      exact ⟨⟨ha, hv⟩, ⟨by omega, wf.1.2⟩, wf.2⟩
    · split
      · next hk =>
        simp only [Memory.wfFrom, Bool.and_eq_true, decide_eq_true_eq]
        exact ⟨⟨ha, hv⟩, hk ▸ wf.2⟩
      · simp only [Memory.wfFrom, Bool.and_eq_true, decide_eq_true_eq]
        exact ⟨wf.1, ih (by omega) wf.2⟩

/-- Writing a word keeps the canonical form. -/
theorem Memory.wf_write (m : Memory) (a : Nat) (v : Word) (wf : m.wf) : (m.write a v).wf := by
  unfold Memory.write
  split
  · exact m.wfFrom_erase a 0 wf
  · next hv => exact m.wfFrom_insert (Nat.zero_le a) hv wf

/-- Loading a program keeps the canonical form. -/
theorem Memory.wf_load (ws : List Word) (a : Nat) (m : Memory) (wf : m.wf) : (Memory.load a ws m).wf := by
  induction ws generalizing a m with
  | nil => exact wf
  | cons w ws ih => exact ih (a + 1) _ (m.wf_write a w wf)

theorem Memory.read_of_lt {m : Memory} {lo a : Nat} (wf : m.wfFrom lo) (h : a < lo) : m.read a = Config.memFill := by
  induction m generalizing lo with
  | nil => rfl
  | cons p m ih =>
    simp only [Memory.wfFrom, Bool.and_eq_true, decide_eq_true_eq] at wf
    have : a ≠ p.1 := by omega
    simp only [Memory.read, this, if_false]
    exact ih wf.2 (by omega)

/-- Two memories in canonical form that read alike everywhere are the same list. -/
theorem Memory.eq_of_read_eq {m n : Memory} {lo : Nat} (hm : m.wfFrom lo) (hn : n.wfFrom lo)
    (h : ∀ a, m.read a = n.read a) : m = n := by
  induction m generalizing n lo with
  | nil =>
    cases n with
    | nil => rfl
    | cons q n =>
      simp only [Memory.wfFrom, Bool.and_eq_true, decide_eq_true_eq] at hn
      have := h q.1
      simp only [Memory.read, if_true] at this
      exact absurd this.symm hn.1.2
  | cons p m ih =>
    simp only [Memory.wfFrom, Bool.and_eq_true, decide_eq_true_eq] at hm
    cases n with
    | nil =>
      have := h p.1
      simp only [Memory.read, if_true] at this
      exact absurd this hm.1.2
    | cons q n =>
      simp only [Memory.wfFrom, Bool.and_eq_true, decide_eq_true_eq] at hn
      have hp := h p.1
      have hq := h q.1
      simp only [Memory.read, if_true] at hp hq
      have key : p.1 = q.1 := by
        rcases Nat.lt_trichotomy p.1 q.1 with hlt | heq | hgt
        · rw [if_neg (by omega), Memory.read_of_lt hn.2 (by omega)] at hp
          exact absurd hp hm.1.2
        · exact heq
        · rw [if_neg (by omega), Memory.read_of_lt hm.2 (by omega)] at hq
          exact absurd hq.symm hn.1.2
      rw [if_pos key] at hp
      have hpq : p = q := Prod.ext key hp
      subst hpq
      congr 1
      refine ih hm.2 hn.2 fun a => ?_
      by_cases ha : a = p.1
      · rw [Memory.read_of_lt hm.2 (by omega), Memory.read_of_lt hn.2 (by omega)]
      · have := h a
        simpa only [Memory.read, if_neg ha] using this

/-! ## Which addresses are listed -/

theorem Memory.mem_erase {m : Memory} {a : Nat} {p : Nat × Word} (h : p ∈ m.erase a) : p ∈ m := by
  induction m with
  | nil => exact h
  | cons q m ih =>
    simp only [Memory.erase] at h
    split at h
    · exact List.mem_cons_of_mem _ (ih h)
    · rcases List.mem_cons.1 h with rfl | h
      · exact List.mem_cons_self
      · exact List.mem_cons_of_mem _ (ih h)

theorem Memory.mem_insert {m : Memory} {a : Nat} {v : Word} {p : Nat × Word} (h : p ∈ m.insert a v) :
    p = (a, v) ∨ p ∈ m := by
  induction m with
  | nil => simpa [Memory.insert] using h
  | cons q m ih =>
    simp only [Memory.insert] at h
    split at h
    · simpa using h
    · split at h
      · rcases List.mem_cons.1 h with h | h
        · exact .inl h
        · exact .inr (List.mem_cons_of_mem _ h)
      · rcases List.mem_cons.1 h with h | h
        · exact .inr (h ▸ List.mem_cons_self)
        · exact (ih h).imp id (List.mem_cons_of_mem _)

/-- A write lists no address but its own anew. -/
theorem Memory.mem_write {m : Memory} {a : Nat} {v : Word} {p : Nat × Word} (h : p ∈ m.write a v) :
    p = (a, v) ∨ p ∈ m := by
  unfold Memory.write at h
  split at h
  · exact .inr (Memory.mem_erase h)
  · exact Memory.mem_insert h

end Sys2Proof.Machine
end

