-- ==== Sys2Proof/Laws/Ops.lean ====
section
/-! SUPPORT. One lemma per shared operation that says everything it can do: memory access, the stack, the fetch, the bit scans,
the end of a step. -/

namespace Sys2Proof.Machine

/-! ## Memory access -/

theorem State.inMemory_iff {s : State} {a : Int} : s.inMemory a = true ↔ 0 ≤ a ∧ a < s.cfg.memWords := by
  simp [State.inMemory]

theorem State.memRead_eq_some {s : State} {a : Int} {v : Word} :
    s.memRead a = some v ↔ (0 ≤ a ∧ a < s.cfg.memWords) ∧ s.mem.read a.toNat = v := by
  rw [← State.inMemory_iff]
  unfold State.memRead
  split <;> simp_all

theorem State.memRead_eq_none {s : State} {a : Int} :
    s.memRead a = none ↔ ¬(0 ≤ a ∧ a < s.cfg.memWords) := by
  rw [← State.inMemory_iff]
  unfold State.memRead
  split <;> simp_all

theorem State.memWrite_eq_some {s t : State} {a : Int} {v : Word} :
    s.memWrite a v = some t ↔ (0 ≤ a ∧ a < s.cfg.memWords) ∧ t = s.setMem (s.mem.write a.toNat v) := by
  rw [← State.inMemory_iff]
  unfold State.memWrite
  split
  · next h => simp [h, eq_comm]
  · next h => simp [h]

theorem State.memWrite_eq_none {s : State} {a : Int} {v : Word} :
    s.memWrite a v = none ↔ ¬(0 ≤ a ∧ a < s.cfg.memWords) := by
  rw [← State.inMemory_iff]
  unfold State.memWrite
  split <;> simp_all

/-- A read after a store (R52, R53, R64): the stored word at its address, the old word at every other. -/
theorem State.memRead_memWrite {s t : State} {a b : Int} {v : Word} (h : s.memWrite a v = some t) :
    t.memRead b = if b = a then some v else s.memRead b := by
  obtain ⟨ha, rfl⟩ := State.memWrite_eq_some.1 h
  have e : (s.setMem (s.mem.write a.toNat v)).memRead b =
      if s.inMemory b then some ((s.mem.write a.toNat v).read b.toNat) else none := rfl
  rw [e, Memory.read_write, State.memRead]
  by_cases hb : s.inMemory b
  · have hb' := State.inMemory_iff.1 hb
    by_cases hba : b = a
    · subst hba; simp [hb]
    · have : b.toNat ≠ a.toNat := by omega
      simp [hb, hba, this]
  · have hba : b ≠ a := fun e => hb (State.inMemory_iff.2 (e ▸ ha))
    simp [hb, hba]

/-! ## The stack -/

theorem State.stkPush_eq_some {s t : State} {v : Word} :
    s.stkPush v = some t ↔ s.sp < Config.stackCap ∧ t = s.setStack (v :: s.stack) := by
  unfold State.stkPush
  split <;> simp_all [eq_comm]

theorem State.stkPush_eq_none {s : State} {v : Word} : s.stkPush v = none ↔ Config.stackCap ≤ s.sp := by
  unfold State.stkPush
  split <;> simp_all

theorem State.stkPop_eq_some {s t : State} {v : Word} :
    s.stkPop = some (v, t) ↔ ∃ rest, s.stack = v :: rest ∧ t = s.setStack rest := by
  unfold State.stkPop
  split <;> simp_all [eq_comm]

theorem State.stkPop_eq_none {s : State} : s.stkPop = none ↔ s.sp = 0 := by
  unfold State.stkPop State.sp
  split <;> simp_all

/-! ## Fetch -/

/-- All that the fetch and decode stages can do (R15, R96, R207). -/
theorem State.fetch_cases (s : State) :
    (s.memRead s.pc.toInt = none ∧ s.fetch = .error (.memOutOfBounds, s.pc)) ∨
    (∃ w e, s.memRead s.pc.toInt = some w ∧ decode s.cfg.opc w = .error e ∧ s.fetch = .error (.malformedOpcode, w)) ∨
    (∃ w i, s.memRead s.pc.toInt = some w ∧ decode s.cfg.opc w = .ok i ∧ s.fetch = .ok i) := by
  unfold State.fetch
  cases hr : s.memRead s.pc.toInt with
  | none => exact .inl ⟨rfl, by simp [trunc32]⟩
  | some w =>
    cases hd : decode s.cfg.opc w with
    | error e => exact .inr (.inl ⟨w, e, rfl, hd, by simp [hd]⟩)
    | ok i => exact .inr (.inr ⟨w, i, rfl, hd, by simp [hd]⟩)

theorem State.fetch_eq_ok {s : State} {i : Instr} :
    s.fetch = .ok i ↔ ∃ w, s.memRead s.pc.toInt = some w ∧ decode s.cfg.opc w = .ok i := by
  rcases s.fetch_cases with ⟨hr, hf⟩ | ⟨w, e, hr, hd, hf⟩ | ⟨w, j, hr, hd, hf⟩
  · simp [hr, hf]
  · simp [hr, hf, hd]
  · simp [hr, hf, hd]

/-- An instruction is fetched only from an address in memory. -/
theorem State.pc_in_memory {s : State} {i : Instr} (h : s.fetch = .ok i) :
    0 ≤ s.pc.toInt ∧ s.pc.toInt < s.cfg.memWords := by
  obtain ⟨w, hr, _⟩ := State.fetch_eq_ok.1 h
  exact (State.memRead_eq_some.1 hr).1

/-! ## The end of a step -/

@[simp] theorem retire_next (s : State) : retire (.next s) = .next s.count := rfl

theorem State.count_of_faulted {s : State} (h : s.status = .faulted) : s.count = s := by
  simp [State.count, h]

/-! ## The bit scans -/

/-- A search over 0 .. 31 finds the least index that has the property, or there is none. -/
theorem find_range_cases (p : Nat → Bool) :
    (∃ k, (List.range 32).find? p = some k ∧ k < 32 ∧ p k = true ∧ ∀ j < k, p j = false) ∨
    ((List.range 32).find? p = none ∧ ∀ j < 32, p j = false) := by
  cases h : (List.range 32).find? p with
  | none =>
    refine .inr ⟨rfl, fun j hj => ?_⟩
    simpa using List.find?_eq_none.1 h j (List.mem_range.2 hj)
  | some k =>
    refine .inl ⟨k, rfl, List.mem_range.1 (List.mem_of_find?_eq_some h), List.find?_some h, fun j hj => ?_⟩
    rw [List.find?_range_eq_some] at h
    simpa using h.2.2 j hj

theorem eq_zero_of_getLsbD {v : Word} (h : ∀ j < 32, v.getLsbD j = false) : v = 0 := by
  apply BitVec.eq_of_getLsbD_eq
  intro j hj
  simp [h j hj]

theorem scanFromTop_eq_none {v : Word} : scanFromTop v = none ↔ v = 0 := by
  refine ⟨fun h => ?_, fun h => by subst h; decide⟩
  rcases find_range_cases (fun j => v.getLsbD (31 - j)) with ⟨k, hk, _⟩ | ⟨_, hz⟩
  · exact absurd (h.symm.trans hk) (by simp)
  · refine eq_zero_of_getLsbD fun j hj => ?_
    have := hz (31 - j) (by omega)
    rwa [show 31 - (31 - j) = j by omega] at this

theorem scanFromBottom_eq_none {v : Word} : scanFromBottom v = none ↔ v = 0 := by
  refine ⟨fun h => ?_, fun h => by subst h; decide⟩
  rcases find_range_cases (fun j => v.getLsbD j) with ⟨k, hk, _⟩ | ⟨_, hz⟩
  · exact absurd (h.symm.trans hk) (by simp)
  · exact eq_zero_of_getLsbD hz

/-- What the scan from the top finds in a word that is not 0 (R180). -/
theorem scanFromTop_of_ne {v : Word} (h : v ≠ 0) :
    ∃ k, scanFromTop v = some k ∧ k < 32 ∧ v.getLsbD (31 - k) = true ∧ ∀ j < k, v.getLsbD (31 - j) = false := by
  rcases find_range_cases (fun j => v.getLsbD (31 - j)) with hk | ⟨hn, _⟩
  · exact hk
  · exact absurd (scanFromTop_eq_none.1 hn) h

/-- What the scan from the bottom finds in a word that is not 0 (R181). -/
theorem scanFromBottom_of_ne {v : Word} (h : v ≠ 0) :
    ∃ k, scanFromBottom v = some k ∧ k < 32 ∧ v.getLsbD k = true ∧ ∀ j < k, v.getLsbD j = false := by
  rcases find_range_cases (fun j => v.getLsbD j) with hk | ⟨hn, _⟩
  · exact hk
  · exact absurd (scanFromBottom_eq_none.1 hn) h

/-! ## Program load -/

/-- A word of memory after loading a program at `a`: the program's word in its range, the old word outside it (R243). -/
theorem Memory.read_load (ws : List Word) (a : Nat) (m : Memory) (b : Nat) :
    (Memory.load a ws m).read b = if h : a ≤ b ∧ b < a + ws.length then ws[b - a] else m.read b := by
  induction ws generalizing a m with
  | nil =>
    rw [dif_neg (by simp)]
    rfl
  | cons w ws ih =>
    rw [Memory.load, ih, Memory.read_write]
    by_cases h1 : a + 1 ≤ b ∧ b < a + 1 + ws.length
    · have h2 : a ≤ b ∧ b < a + (w :: ws).length := by simp only [List.length_cons]; omega
      rw [dif_pos h1, dif_pos h2, List.getElem_cons, dif_neg (by omega)]
      congr 1
    · rw [dif_neg h1]
      by_cases h3 : b = a
      · subst h3
        simp
      · rw [if_neg h3, dif_neg]
        simp only [List.length_cons]
        omega

/-- Loading a program lists no address outside its range anew. -/
theorem Memory.mem_load {ws : List Word} {a : Nat} {m : Memory} {p : Nat × Word} (h : p ∈ Memory.load a ws m) :
    (a ≤ p.1 ∧ p.1 < a + ws.length) ∨ p ∈ m := by
  induction ws generalizing a m with
  | nil => exact .inr h
  | cons w ws ih =>
    rcases ih h with h | h
    · left
      simp only [List.length_cons]
      omega
    · rcases Memory.mem_write h with rfl | h
      · left
        simp
      · exact .inr h

end Sys2Proof.Machine
end

