-- ==== Sys2Proof/Laws/Arith.lean ====
section
/-! SUPPORT. What the arithmetic of the core computes, and the conditions, each said once as a number or a proposition. -/

namespace Sys2Proof.Machine

/-! ## Words and integers -/

theorem toInt_eq_zero {x : Word} : x.toInt = 0 ↔ x = 0 := by
  rw [← BitVec.toInt_inj]
  simp

theorem toNat_eq_zero {x : Word} : x.toNat = 0 ↔ x = 0 := by
  rw [← BitVec.toNat_inj]
  simp

/-- An integer in the signed range survives `trunc32`. -/
theorem toInt_trunc32 {n : Int} (h1 : -2 ^ 31 ≤ n) (h2 : n < 2 ^ 31) : (trunc32 n).toInt = n := by
  rw [trunc32, BitVec.toInt_ofInt]
  exact Int.bmod_eq_of_le (by omega) (by omega)

@[simp] theorem trunc32_toInt (x : Word) : trunc32 x.toInt = x := by simp [trunc32]

/-! ## The integer arithmetic -/

/-- `add` is the sum of bit vectors (R121: the same pattern under both readings). -/
theorem sum32_eq (x y : Word) : sum32 x y = x + y := by simp [sum32, trunc32, BitVec.ofInt_add]

theorem toNat_mulLow (x y : Word) : (mulLow x y).toNat = x.toNat * y.toNat % 2 ^ 32 := by
  have hx := x.isLt
  have hy := y.isLt
  have : x.toNat * y.toNat < 2 ^ 64 := by nlinarith
  simp [mulLow, BitVec.extractLsb'_toNat]

theorem toNat_divU (x y : Word) : (divU x y).toNat = x.toNat / y.toNat := by
  have hx := x.isLt
  have hy := y.isLt
  have hq : x.toNat / y.toNat ≤ x.toNat := Nat.div_le_self _ _
  simp only [divU, BitVec.extractLsb'_toNat, BitVec.toNat_udiv, BitVec.toNat_setWidth, Nat.shiftRight_zero]
  rw [Nat.mod_eq_of_lt (a := x.toNat) (by omega), Nat.mod_eq_of_lt (a := y.toNat) (by omega)]
  exact Nat.mod_eq_of_lt (lt_of_le_of_lt hq hx)

theorem imulLow_eq (x y : Word) : imulLow x y = x * y := by simp [imulLow, trunc32, BitVec.ofInt_mul]

/-- The low words of the signed and of the unsigned product are one pattern (R125, R127). -/
theorem imulLow_eq_mulLow (x y : Word) : imulLow x y = mulLow x y := by
  rw [imulLow_eq]
  apply BitVec.eq_of_toNat_eq
  rw [toNat_mulLow, BitVec.toNat_mul]

theorem quotTowardZero_nat (m n : Nat) : quotTowardZero m n = Int.tdiv m n := by
  unfold quotTowardZero
  rcases Nat.eq_zero_or_pos m with rfl | hm
  · simp
  rcases Nat.eq_zero_or_pos n with rfl | hn
  · simp
  rw [Int.sign_eq_one_of_pos (by omega), Int.sign_eq_one_of_pos (by omega)]
  simp

/-- The spec's formula for the quotient is truncated division (R128). -/
theorem quotTowardZero_eq_tdiv (a b : Int) : quotTowardZero a b = Int.tdiv a b := by
  have left : ∀ a b : Int, quotTowardZero (-a) b = -quotTowardZero a b := by simp [quotTowardZero]
  have right : ∀ a b : Int, quotTowardZero a (-b) = -quotTowardZero a b := by simp [quotTowardZero]
  obtain ⟨m, rfl | rfl⟩ := a.eq_nat_or_neg <;> obtain ⟨n, rfl | rfl⟩ := b.eq_nat_or_neg <;>
    simp only [left, right, Int.neg_tdiv, Int.tdiv_neg, quotTowardZero_nat]

theorem divSFaults_iff {c : Config} {x y : Word} :
    divSFaults c x y = true ↔ y = 0 ∨ (x.toInt = -2 ^ 31 ∧ y.toInt = -1 ∧ c.xidivOvf = .fault) := by
  simp [divSFaults, toInt_eq_zero, and_assoc]

/-! ## Conditions -/

theorem greaterEq_iff {c : Config} {x y : Word} :
    greaterEq c x y = true ↔ if c.cmpSigned = true then x.toInt ≥ y.toInt else x.toNat ≥ y.toNat := by
  unfold greaterEq
  split <;> simp

theorem jarlEqual_iff {s : State} {a b : Reg} :
    jarlEqual s a b = true ↔ if s.cfg.jarlEq = .value then s.reg a = s.reg b else a = b := by
  unfold jarlEqual
  cases s.cfg.jarlEq <;> simp

/-- The index the scan from the top finds is 31 less the logarithm (R180). -/
theorem eq_sub_log2 {v : Word} {k : Nat} (hk : k < 32) (h1 : v.getLsbD (31 - k) = true)
    (h2 : ∀ j < k, v.getLsbD (31 - j) = false) : k = 31 - Nat.log2 v.toNat := by
  have hv : v.toNat ≠ 0 := fun e => by
    rw [toNat_eq_zero] at e
    subst e
    simp at h1
  have hlt : v.toNat < 2 ^ (32 - k) := by
    apply Nat.lt_pow_two_of_testBit
    intro i hi
    by_cases h32 : i < 32
    · have := h2 (31 - i) (by omega)
      rwa [show 31 - (31 - i) = i by omega] at this
    · exact v.getLsbD_of_ge i (by omega)
  have a1 : Nat.log2 v.toNat < 32 - k := (Nat.log2_lt hv).2 hlt
  have a2 : 31 - k ≤ Nat.log2 v.toNat := (Nat.le_log2 hv).2 (Nat.ge_two_pow_of_testBit h1)
  omega

end Sys2Proof.Machine
end

