-- ==== Sys2Proof/Laws/Bus.lean ====
section
/-! SUPPORT. What the transaction lists hold. -/

namespace Sys2Proof.Machine

theorem State.mem_readTransaction {s : State} {a : Int} {x : Transaction} :
    x ∈ s.readTransaction a ↔ ∃ v, s.memRead a = some v ∧ x = .read a.toNat v := by
  unfold State.readTransaction
  split <;> simp_all

theorem State.mem_writeTransaction {s : State} {a : Int} {v : Word} {x : Transaction} :
    x ∈ s.writeTransaction a v ↔ s.inMemory a = true ∧ x = .write a.toNat v := by
  unfold State.writeTransaction
  split <;> simp_all

/-- An instruction has no data transaction unless it is `lw` or `sw`. -/
theorem State.dataTransactions_cases (s : State) (i : Instr) :
    (∃ a b off, i = .lw a b off ∧ s.dataTransactions i = s.readTransaction (s.ea a off)) ∨
    (∃ a b off, i = .sw a b off ∧ s.dataTransactions i = s.writeTransaction (s.ea a off) (s.reg b)) ∨
    ((∀ a b off, i ≠ .lw a b off ∧ i ≠ .sw a b off) ∧ s.dataTransactions i = []) := by
  cases i <;> simp [State.dataTransactions]

theorem State.transactions_of_running {s : State} (run : s.status = .running) :
    s.transactions = s.readTransaction s.pc.toInt ++
      match s.fetch with
      | .error _ => []
      | .ok i => s.dataTransactions i := by
  unfold State.transactions
  rw [run] <;> rfl

end Sys2Proof.Machine
end

