-- ==== Sys2Proof/Laws/Exec.lean ====
section
/-! SUPPORT. What an instruction and a step can do, said once: every claim about all instructions is derived from
`exec_cases` or `step_cases`. -/

namespace Sys2Proof.Machine

/-- What a completed instruction leaves of the state beside registers and `pc`: each part is unchanged unless the instruction
is one of those that write it. -/
structure Completed (i : Instr) (s t : State) : Prop where
  cfg : t.cfg = s.cfg
  faultCause : t.faultCause = s.faultCause
  faultInfo : t.faultInfo = s.faultInfo
  icount : t.icount = s.icount
  status : t.status = s.status ∨ (i = .halt ∧ t.status = .halted)
  flag : t.flag = s.flag ∨ ∃ a b, i = .bsr a b ∨ i = .bsf a b
  mem : t.mem = s.mem ∨
    ∃ a b off, i = .sw a b off ∧ (0 ≤ s.ea a off ∧ s.ea a off < s.cfg.memWords) ∧
      t.mem = s.mem.write (s.ea a off).toNat (s.reg b)
  stack : t.stack = s.stack ∨
    (i = .push ∧ s.sp < Config.stackCap ∧ t.stack = s.reg Config.stackReg :: s.stack) ∨
    (i = .pop ∧ ∃ v, s.stack = v :: t.stack)

/-- A state that differs in registers, `pc` and perhaps the flag of a bit scan only. -/
theorem Completed.of_core {i : Instr} {s t : State} (h : t.cfg = s.cfg ∧ t.faultCause = s.faultCause ∧
    t.faultInfo = s.faultInfo ∧ t.icount = s.icount ∧ t.status = s.status ∧ t.mem = s.mem ∧ t.stack = s.stack)
    (flag : t.flag = s.flag ∨ ∃ a b, i = .bsr a b ∨ i = .bsf a b) : Completed i s t where
  cfg := h.1
  faultCause := h.2.1
  faultInfo := h.2.2.1
  icount := h.2.2.2.1
  status := .inl h.2.2.2.2.1
  flag := flag
  mem := .inl h.2.2.2.2.2.1
  stack := .inl h.2.2.2.2.2.2

theorem Completed.writeResult (i : Instr) (s : State) (f : Word → Word → Word) (a b c : Reg) :
    Completed i s (s.writeResult f a b c) :=
  .of_core ⟨rfl, rfl, rfl, rfl, rfl, rfl, rfl⟩ (.inl rfl)

theorem Completed.branchIf (i : Instr) (s : State) (taken : Bool) (off : Int) :
    Completed i s (s.branchIf taken off) := by
  rw [State.branchIf_eq]
  exact .of_core ⟨rfl, rfl, rfl, rfl, rfl, rfl, rfl⟩ (.inl rfl)

theorem Completed.exchange (i : Instr) (s : State) (a b c : Reg) (v : Word) :
    Completed i s ((s.setReg c v).exchange a b).advance :=
  .of_core ⟨rfl, rfl, rfl, rfl, rfl, rfl, rfl⟩ (.inl rfl)

/-- All that executing an instruction can do: it takes a fault, and then nothing but the fault record changes, or it
completes. -/
theorem exec_cases (i : Instr) (s : State) :
    (∃ c info, c ≠ .noFault ∧ exec i s = .next (s.raise c info)) ∨ ∃ t, exec i s = .next t ∧ Completed i s t := by
  cases i with
  | add a b c => exact .inr ⟨_, rfl, .writeResult _ _ _ _ _ _⟩
  | mul a b c => exact .inr ⟨_, rfl, .writeResult _ _ _ _ _ _⟩
  | imul a b c => exact .inr ⟨_, rfl, .writeResult _ _ _ _ _ _⟩
  | and a b c => exact .inr ⟨_, rfl, .writeResult _ _ _ _ _ _⟩
  | xor a b c => exact .inr ⟨_, rfl, .writeResult _ _ _ _ _ _⟩
  | nand a b c => exact .inr ⟨_, rfl, .writeResult _ _ _ _ _ _⟩
  | cmpge a b c => exact .inr ⟨_, rfl, .writeResult _ _ _ _ _ _⟩
  | div a b c =>
    simp only [exec, execDiv]
    split
    · exact .inl ⟨_, _, by decide, rfl⟩
    · exact .inr ⟨_, rfl, .writeResult _ _ _ _ _ _⟩
  | xidiv a b c =>
    simp only [exec, execXidiv]
    split
    · exact .inl ⟨_, _, by decide, rfl⟩
    · exact .inr ⟨_, rfl, .exchange _ _ _ _ _ _⟩
  | lw a b off =>
    simp only [exec, execLw]
    split
    · exact .inl ⟨_, _, by decide, rfl⟩
    · exact .inr ⟨_, rfl, .of_core ⟨rfl, rfl, rfl, rfl, rfl, rfl, rfl⟩ (.inl rfl)⟩
  | sw a b off =>
    simp only [exec, execSw]
    split
    · exact .inl ⟨_, _, by decide, rfl⟩
    · next t h =>
      obtain ⟨hb, rfl⟩ := State.memWrite_eq_some.1 h
      exact .inr ⟨_, rfl, ⟨rfl, rfl, rfl, rfl, .inl rfl, .inl rfl, .inr ⟨a, b, off, rfl, hb, rfl⟩, .inl rfl⟩⟩
  | beq a b off => exact .inr ⟨_, rfl, .branchIf _ _ _ _⟩
  | jmae a b off => exact .inr ⟨_, rfl, .branchIf _ _ _ _⟩
  | jmnae a b off => exact .inr ⟨_, rfl, .branchIf _ _ _ _⟩
  | jne off => exact .inr ⟨_, rfl, .branchIf _ _ _ _⟩
  | jarl a b =>
    simp only [exec, execJarl]
    split
    · exact .inr ⟨_, rfl, .of_core ⟨rfl, rfl, rfl, rfl, rfl, rfl, rfl⟩ (.inl rfl)⟩
    · exact .inr ⟨_, rfl, .of_core ⟨rfl, rfl, rfl, rfl, rfl, rfl, rfl⟩ (.inl rfl)⟩
  | halt => exact .inr ⟨_, rfl, ⟨rfl, rfl, rfl, rfl, .inr ⟨rfl, rfl⟩, .inl rfl, .inl rfl, .inl rfl⟩⟩
  | bsr a b => exact .inr ⟨_, rfl, .of_core ⟨rfl, rfl, rfl, rfl, rfl, rfl, rfl⟩ (.inr ⟨a, b, .inl rfl⟩)⟩
  | bsf a b => exact .inr ⟨_, rfl, .of_core ⟨rfl, rfl, rfl, rfl, rfl, rfl, rfl⟩ (.inr ⟨a, b, .inr rfl⟩)⟩
  | push =>
    simp only [exec, execPush]
    split
    · exact .inl ⟨_, _, by decide, rfl⟩
    · next t h =>
      obtain ⟨hb, rfl⟩ := State.stkPush_eq_some.1 h
      exact .inr ⟨_, rfl, ⟨rfl, rfl, rfl, rfl, .inl rfl, .inl rfl, .inl rfl, .inr (.inl ⟨rfl, hb, rfl⟩)⟩⟩
  | pop =>
    simp only [exec, execPop]
    split
    · exact .inl ⟨_, _, by decide, rfl⟩
    · next v t h =>
      obtain ⟨rest, hs, rfl⟩ := State.stkPop_eq_some.1 h
      exact .inr ⟨_, rfl, ⟨rfl, rfl, rfl, rfl, .inl rfl, .inl rfl, .inl rfl, .inr (.inr ⟨rfl, v, hs⟩)⟩⟩

theorem Completed.status_ne_faulted {i : Instr} {s t : State} (h : Completed i s t) (hs : s.status ≠ .faulted) :
    t.status ≠ .faulted := by
  rcases h.status with e | ⟨_, e⟩
  · rwa [e]
  · simp [e]

theorem step_of_fetch_error {s : State} {c : FaultCause} {info : Word} (run : s.status = .running)
    (h : s.fetch = .error (c, info)) : step s = .next (s.raise c info) := by
  simp [step, run, h]

theorem step_of_fetch_ok {s : State} {i : Instr} (run : s.status = .running) (h : s.fetch = .ok i) :
    step s = retire (exec i s) := by
  simp [step, run, h]

/-- All that a step of a running core can do: it takes a fault, or it completes the instruction it fetched and counts it. -/
theorem step_cases {s : State} (run : s.status = .running) :
    (∃ c info, c ≠ .noFault ∧ step s = .next (s.raise c info)) ∨
    ∃ i t, s.fetch = .ok i ∧ exec i s = .next t ∧ Completed i s t ∧
      step s = .next t.tick := by
  rcases s.fetch_cases with ⟨_, hf⟩ | ⟨w, _, _, _, hf⟩ | ⟨w, i, _, _, hf⟩
  · exact .inl ⟨.memOutOfBounds, s.pc, by decide, step_of_fetch_error run hf⟩
  · exact .inl ⟨.malformedOpcode, w, by decide, step_of_fetch_error run hf⟩
  · rcases exec_cases i s with ⟨c, info, hc, he⟩ | ⟨t, he, ht⟩
    · exact .inl ⟨c, info, hc, by
        rw [step_of_fetch_ok run hf, he, retire_next, State.count_raise]⟩
    · refine .inr ⟨i, t, hf, he, ht, ?_⟩
      rw [step_of_fetch_ok run hf, he, retire_next, State.count_of_ne (ht.status_ne_faulted (by simp [run]))]

theorem step_of_not_running {s : State} (h : s.status ≠ .running) : ∃ r, step s = .fault r := by
  cases e : s.status with
  | running => exact absurd e h
  | halted => exact ⟨.halted, by simp [step, e]⟩
  | faulted => exact ⟨.faulted, by simp [step, e]⟩

/-- A step that has a next state was taken by a running core. -/
theorem running_of_step {s t : State} (h : step s = .next t) : s.status = .running := by
  by_contra hs
  obtain ⟨r, e⟩ := step_of_not_running hs
  rw [e] at h
  cases h

end Sys2Proof.Machine
end

