-- ==== Sys2Proof/Laws/Frame.lean ====
section
/-! SUPPORT. What the shared operations change and leave unchanged, in the words of Safety.lean. -/

namespace Sys2Proof.Machine

theorem RegsSame.refl (s : State) (rs : List Reg) : RegsSame s s rs := fun _ _ => rfl

theorem MemSame.refl (s : State) : MemSame s s := fun _ => rfl

theorem MemSame.of_eq {s t : State} (hc : t.cfg = s.cfg) (hm : t.mem = s.mem) : MemSame s t := fun a => by
  simp [State.memRead, State.inMemory, hc, hm]

/-- Taking a fault records it and changes nothing else (R208). -/
theorem faultedFrom_raise (s : State) (c : FaultCause) (info : Word) : FaultedFrom s (s.raise c info) c info :=
  ⟨rfl, rfl, rfl, fun _ _ => rfl, rfl, rfl, rfl, fun _ => rfl, rfl, rfl⟩

/-- All a three-register operation does (R120). -/
theorem writeResult_spec (s : State) (f : Word → Word → Word) (a b c : Reg) :
    (s.writeResult f a b c).reg c = f (s.reg a) (s.reg b) ∧
      RegsSame s (s.writeResult f a b c) [c] ∧ PcAdvanced s (s.writeResult f a b c) ∧
      ControlSame s (s.writeResult f a b c) ∧ MemSame s (s.writeResult f a b c) := by
  refine ⟨by simp [State.writeResult], fun r hr => ?_, rfl, ⟨rfl, rfl, rfl, rfl, rfl, rfl, rfl⟩, fun _ => rfl⟩
  simp only [List.mem_singleton] at hr
  simp [State.writeResult, State.reg_setReg, hr]

/-- All a conditional branch does beside `pc` (R160 to R163). -/
theorem branchIf_frame (s : State) (taken : Bool) (off : Int) :
    RegsSame s (s.branchIf taken off) [] ∧ ControlSame s (s.branchIf taken off) ∧ MemSame s (s.branchIf taken off) := by
  rw [State.branchIf_eq]
  exact ⟨fun _ _ => rfl, ⟨rfl, rfl, rfl, rfl, rfl, rfl, rfl⟩, fun _ => rfl⟩

@[simp] theorem branchIf_pc (s : State) (taken : Bool) (off : Int) :
    (s.branchIf taken off).pc = if taken then s.branchTarget off else trunc32 (s.pc.toInt + 1) := by
  rw [State.branchIf_eq]

/-- All a bit scan does beside its result and the flag (R180, R181). -/
theorem writeScan_frame (s : State) (scan : Word → Option Nat) (a b : Reg) :
    RegsSame s (s.writeScan scan a b) [b] ∧ PcAdvanced s (s.writeScan scan a b) ∧
      (s.writeScan scan a b).stack = s.stack ∧ RecordSame s (s.writeScan scan a b) ∧ MemSame s (s.writeScan scan a b) := by
  refine ⟨fun r hr => ?_, rfl, rfl, ⟨rfl, rfl, rfl, rfl, rfl⟩, fun _ => rfl⟩
  simp only [List.mem_singleton] at hr
  simp [State.writeScan, State.reg_setReg, hr]

@[simp] theorem writeScan_reg (s : State) (scan : Word → Option Nat) (a b : Reg) :
    (s.writeScan scan a b).reg b = scanResult (scan (s.reg a)) := by
  simp [State.writeScan]

@[simp] theorem writeScan_flag (s : State) (scan : Word → Option Nat) (a b : Reg) :
    (s.writeScan scan a b).flag = scanFlag (scan (s.reg a)) := rfl

end Sys2Proof.Machine
end

