-- ==== Sys2Proof/Laws/PerInstr.lean ====
section
/-! SUPPORT. Facts about every instruction as syntax, one lemma per constructor. -/

namespace Sys2Proof.Laws.EncodeHead

/-- The word that encodes an instruction has its bits 31:28 zero and its mnemonic's opcode in bits 27:23, under every opcode
map (spec/30_encoding.md R81, R82, R92). -/
def Statement (i : Instr) : Prop :=
  ∀ o : OpcMap, fieldTop (encode o i) = 0#4 ∧ fieldOp (encode o i) = o.code i.mnemonic

theorem of_fields {i : Instr} (h : ∀ o : OpcMap, ∃ a b f, encode o i = encodeFields (o.code i.mnemonic) a b f) :
    Statement i := fun o => by
  obtain ⟨a, b, f, e⟩ := h o
  rw [e]
  exact ⟨fieldTop_encodeFields _ _ _ _, fieldOp_encodeFields _ _ _ _⟩

theorem add (a b c : Reg) : Statement (.add a b c) := of_fields fun _ => ⟨_, _, _, rfl⟩
theorem mul (a b c : Reg) : Statement (.mul a b c) := of_fields fun _ => ⟨_, _, _, rfl⟩
theorem div (a b c : Reg) : Statement (.div a b c) := of_fields fun _ => ⟨_, _, _, rfl⟩
theorem imul (a b c : Reg) : Statement (.imul a b c) := of_fields fun _ => ⟨_, _, _, rfl⟩
theorem xidiv (a b c : Reg) : Statement (.xidiv a b c) := of_fields fun _ => ⟨_, _, _, rfl⟩
theorem and (a b c : Reg) : Statement (.and a b c) := of_fields fun _ => ⟨_, _, _, rfl⟩
theorem xor (a b c : Reg) : Statement (.xor a b c) := of_fields fun _ => ⟨_, _, _, rfl⟩
theorem nand (a b c : Reg) : Statement (.nand a b c) := of_fields fun _ => ⟨_, _, _, rfl⟩
theorem cmpge (a b c : Reg) : Statement (.cmpge a b c) := of_fields fun _ => ⟨_, _, _, rfl⟩
theorem lw (a b : Reg) (off : Int) : Statement (.lw a b off) := of_fields fun _ => ⟨_, _, _, rfl⟩
theorem sw (a b : Reg) (off : Int) : Statement (.sw a b off) := of_fields fun _ => ⟨_, _, _, rfl⟩
theorem beq (a b : Reg) (off : Int) : Statement (.beq a b off) := of_fields fun _ => ⟨_, _, _, rfl⟩
theorem jarl (a b : Reg) : Statement (.jarl a b) := of_fields fun _ => ⟨_, _, _, rfl⟩
theorem jmae (a b : Reg) (off : Int) : Statement (.jmae a b off) := of_fields fun _ => ⟨_, _, _, rfl⟩
theorem jmnae (a b : Reg) (off : Int) : Statement (.jmnae a b off) := of_fields fun _ => ⟨_, _, _, rfl⟩
theorem jne (off : Int) : Statement (.jne off) := of_fields fun _ => ⟨_, _, _, rfl⟩
theorem halt : Statement .halt := of_fields fun _ => ⟨_, _, _, rfl⟩
theorem bsr (a b : Reg) : Statement (.bsr a b) := of_fields fun _ => ⟨_, _, _, rfl⟩
theorem bsf (a b : Reg) : Statement (.bsf a b) := of_fields fun _ => ⟨_, _, _, rfl⟩
theorem push : Statement .push := of_fields fun _ => ⟨_, _, _, rfl⟩
theorem pop : Statement .pop := of_fields fun _ => ⟨_, _, _, rfl⟩

end Sys2Proof.Laws.EncodeHead
end

