-- ==== Sys2Proof/Laws/Run.lean ====
section
/-! SUPPORT. What a bounded run does, one lemma per case, and the states it passes. -/

namespace Sys2Proof.Machine

theorem run_of_halted {s : State} (h : s.status = .halted) (n : Nat) : run n s = .halted s := by
  cases n <;> rw [run, h]

theorem run_of_faulted {s : State} (h : s.status = .faulted) (n : Nat) : run n s = .faulted s := by
  cases n <;> rw [run, h]

theorem run_zero {s : State} (h : s.status = .running) : run 0 s = .outOfFuel s := by
  rw [run, h]

theorem run_succ {s t : State} (h : step s = .next t) (n : Nat) : run (n + 1) s = run n t := by
  rw [run, running_of_step h]
  simp [h]

/-- A step before a run. -/
theorem Reaches.head {s u t : State} (h : step s = .next u) (r : Reaches u t) : Reaches s t := by
  induction r with
  | refl => exact .tail _ _ _ (.refl _) h
  | tail _ _ _ l ih => exact .tail _ _ _ ih l

/-- A reached state is some number of steps away, and a run passes it. -/
theorem Reaches.run_add {s t : State} (r : Reaches s t) : ∃ k, ∀ m, run (k + m) s = run m t := by
  induction r with
  | refl => exact ⟨0, fun m => by simp⟩
  | tail t u _ l ih =>
    obtain ⟨k, hk⟩ := ih
    exact ⟨k + 1, fun m => by rw [Nat.add_assoc, Nat.add_comm 1 m, hk, run_succ l]⟩

end Sys2Proof.Machine
end

