-- ==== Sys2Proof/Laws/Text.lean ====
section
/-! SUPPORT. Text and the program file: cutting undoes joining, and reading a decimal integer undoes writing it. -/

namespace Sys2Proof.Machine

open Asm

/-! ## Cutting and joining -/

theorem cut_ne_nil (sep : Char) (t : Text) : cut sep t ≠ [] := by
  cases t with
  | nil => simp [cut]
  | cons c cs =>
    simp only [cut]
    split
    · simp
    · split <;> simp

/-- A piece with no separator in it, then a separator. -/
theorem cut_append_cons {sep : Char} {l : Text} (h : sep ∉ l) (t : Text) :
    cut sep (l ++ sep :: t) = l :: cut sep t := by
  induction l with
  | nil => simp [cut]
  | cons c cs ih =>
    have hc : c ≠ sep := fun e => h (by simp [e])
    simp [cut, hc, ih (fun m => h (List.mem_cons_of_mem _ m))]

theorem cut_of_notMem {sep : Char} {l : Text} (h : sep ∉ l) : cut sep l = [l] := by
  induction l with
  | nil => rfl
  | cons c cs ih =>
    have hc : c ≠ sep := fun e => h (by simp [e])
    simp [cut, hc, ih (fun m => h (List.mem_cons_of_mem _ m))]

/-- Cutting undoes joining, for one piece or more with no separator in any. -/
theorem cut_join {sep : Char} {ls : List Text} (ne : ls ≠ []) (h : ∀ l ∈ ls, sep ∉ l) : cut sep (join sep ls) = ls := by
  induction ls with
  | nil => exact absurd rfl ne
  | cons l rest ih =>
    have hl := h l (by simp)
    cases rest with
    | nil => exact cut_of_notMem hl
    | cons l' rest' =>
      rw [join, cut_append_cons hl, ih (by simp) (fun m hm => h m (List.mem_cons_of_mem _ hm))]
      simp

/-- A separator at the end is an empty piece more. -/
theorem cut_append_sep (sep : Char) (t : Text) : cut sep (t ++ [sep]) = cut sep t ++ [[]] := by
  induction t with
  | nil => simp [cut]
  | cons c cs ih =>
    simp only [List.cons_append, cut, ih]
    split
    · rfl
    · cases e : cut sep cs with
      | nil => exact absurd e (cut_ne_nil sep cs)
      | cons f fs => rfl

/-! ## Decimal integers -/

theorem digitChar_spec {d : Nat} (h : d < 10) :
    (digitChar d).isDigit = true ∧ (digitChar d).toNat - '0'.toNat = d ∧ digitChar d ≠ '-' ∧ digitChar d ≠ '\n' := by
  have : ∀ d : Fin 10, (digitChar d).isDigit = true ∧ (digitChar d).toNat - '0'.toNat = d ∧ digitChar d ≠ '-' ∧
      digitChar d ≠ '\n' := by decide
  exact this ⟨d, h⟩

/-- Reading the digits of `n` appends them to the digits read before. -/
theorem digitsFrom_showNatBefore {fuel n : Nat} (h : n < 10 ^ fuel) (rest : Text) :
    ∃ k, ∀ acc, digitsFrom acc (showNatBefore rest fuel n) = digitsFrom (acc * 10 ^ k + n) rest := by
  induction fuel generalizing n rest with
  | zero => exact ⟨0, fun acc => by simp at h; simp [showNatBefore, h]⟩
  | succ fuel ih =>
    simp only [showNatBefore]
    split
    · next hn =>
      obtain ⟨hd, hv, _, _⟩ := digitChar_spec hn
      exact ⟨1, fun acc => by rw [digitsFrom, if_pos hd, hv, pow_one]⟩
    · next hn =>
      obtain ⟨k, hk⟩ := ih (n := n / 10) (by rw [pow_succ] at h; omega) (digitChar (n % 10) :: rest)
      obtain ⟨hd, hv, _, _⟩ := digitChar_spec (Nat.mod_lt n (by decide : 0 < 10))
      refine ⟨k + 1, fun acc => ?_⟩
      rw [hk, digitsFrom, if_pos hd, hv]
      congr 1
      rw [pow_succ, ← mul_assoc, add_mul]
      omega

/-- The first character written is a digit. -/
theorem showNatBefore_cons (fuel n : Nat) (rest : Text) :
    ∃ d < 10, ∃ t, showNatBefore rest (fuel + 1) n = digitChar d :: t := by
  induction fuel generalizing n rest with
  | zero =>
    simp only [showNatBefore]
    split
    · next h => exact ⟨n, h, rest, rfl⟩
    · exact ⟨n % 10, Nat.mod_lt n (by decide), rest, rfl⟩
  | succ fuel ih =>
    rw [showNatBefore]
    split
    · next h => exact ⟨n, h, rest, rfl⟩
    · exact ih _ _

theorem newline_notMem_showNatBefore (fuel n : Nat) {rest : Text} (h : '\n' ∉ rest) :
    '\n' ∉ showNatBefore rest fuel n := by
  induction fuel generalizing n rest with
  | zero => exact h
  | succ fuel ih =>
    simp only [showNatBefore]
    split
    · next hn => simp [h, (digitChar_spec hn).2.2.2.symm]
    · exact ih _ (by simp [h, (digitChar_spec (Nat.mod_lt n (by decide : 0 < 10))).2.2.2.symm])

theorem newline_notMem_showInt (n : Int) : '\n' ∉ showInt n := by
  unfold showInt showNat
  split
  · simpa using newline_notMem_showNatBefore _ _ (by simp)
  · exact newline_notMem_showNatBefore _ _ (by simp)

/-- Reading undoes writing, for natural numbers. -/
theorem parseNat_showNat (n : Nat) : parseNat (showNat n) = some n := by
  obtain ⟨k, hk⟩ := digitsFrom_showNatBefore (fuel := n + 1) (n := n)
    (lt_trans (Nat.lt_succ_self n) (Nat.lt_pow_self (by decide))) []
  obtain ⟨d, _, t, ht⟩ := showNatBefore_cons n n []
  have h0 := hk 0
  unfold showNat
  rw [ht] at h0 ⊢
  simpa [parseNat, digitsFrom] using h0

/-- Reading undoes writing, for integers. -/
theorem parseInt_showInt (n : Int) : parseInt (showInt n) = some n := by
  unfold showInt
  split
  · next h =>
    rw [parseInt, parseNat_showNat]
    exact congrArg some (by omega : -(n.natAbs : Int) = n)
  · next h =>
    obtain ⟨d, hd, t, ht⟩ := showNatBefore_cons n.natAbs n.natAbs []
    have hs : showNat n.natAbs = digitChar d :: t := ht
    have hp := parseNat_showNat n.natAbs
    rw [hs] at hp ⊢
    rw [parseInt]
    · rw [hp]
      exact congrArg some (by omega : (n.natAbs : Int) = n)
    · intro r e
      exact (digitChar_spec hd).2.2.1 (List.cons.inj e).1

/-! ## The program file -/

/-- A line as it is written reads as its word. -/
theorem lineWord_showInt (w : Word) : lineWord (showInt w.toInt) = some w := by
  have hlo := BitVec.le_toInt w
  have hhi := BitVec.toInt_lt (x := w)
  simp only [lineWord, parseInt_showInt]
  rw [if_pos (by omega)]
  simp [trunc32]

theorem fileWords_fileLines (words : List Word) : fileWords (fileLines words) = some words := by
  induction words with
  | nil => rfl
  | cons w ws ih =>
    have : fileLines (w :: ws) = showInt w.toInt :: fileLines ws := rfl
    rw [this, fileWords, lineWord_showInt, ih]

/-- What it takes for the lines to be words. -/
theorem fileWords_cons {line : Text} {rest : List Text} {words : List Word} :
    fileWords (line :: rest) = some words ↔
      ∃ w ws, lineWord line = some w ∧ fileWords rest = some ws ∧ words = w :: ws := by
  simp only [fileWords]
  cases lineWord line <;> cases fileWords rest <;> simp [eq_comm]

end Sys2Proof.Machine
end

