-- ==== Sys2Proof/Tests/Slice0.lean ====
section
/-! SUPPORT. Tests. Every expected value comes from spec/95_test_vectors.md (vectors V1 to V76, programs P1 to P7) or from the
tables R131, R184 and the encodings of R88; no value was taken from the model. -/

namespace Sys2Proof.Tests

open Sys2Proof Sys2Proof.Machine

/-! ## Well-formedness: an ill-formed term for each check -/

theorem test_lw_offset_above : (Instr.lw 0 1 16384).wellFormed = false := by decide
theorem test_lw_offset_below : (Instr.lw 0 1 (-16385)).wellFormed = false := by decide
theorem test_sw_offset_above : (Instr.sw 0 1 16384).wellFormed = false := by decide
theorem test_sw_offset_below : (Instr.sw 0 1 (-16385)).wellFormed = false := by decide
theorem test_beq_offset_above : (Instr.beq 0 1 16384).wellFormed = false := by decide
theorem test_beq_offset_below : (Instr.beq 0 1 (-16385)).wellFormed = false := by decide
theorem test_jmae_offset_above : (Instr.jmae 0 1 16384).wellFormed = false := by decide
theorem test_jmae_offset_below : (Instr.jmae 0 1 (-16385)).wellFormed = false := by decide
theorem test_jmnae_offset_above : (Instr.jmnae 0 1 16384).wellFormed = false := by decide
theorem test_jmnae_offset_below : (Instr.jmnae 0 1 (-16385)).wellFormed = false := by decide
theorem test_jne_offset_above : (Instr.jne 16384).wellFormed = false := by decide
theorem test_jne_offset_below : (Instr.jne (-16385)).wellFormed = false := by decide
theorem test_memWords_zero : Config.legal { Config.default with memWords := 0 } = false := by decide
theorem test_memWords_too_many : Config.legal { Config.default with memWords := 2 ^ 31 - 2 ^ 15 + 1 } = false := by decide
theorem test_opcode_twice : Config.legal { Config.default with opc := { OpcMap.listing with pop := 0 } } = false := by decide
theorem test_default_legal : Config.default.legal = true := by decide

/-! ## Decoding: every constructor from a word written bit by bit (R88; opcode, A, B, then the low field) -/

theorem test_decode_add : decode .listing 0b00000000000010010000000000000011#32 = .ok (.add 1 2 3) := by decide
theorem test_decode_mul : decode .listing 0b00000000100010010000000000000011#32 = .ok (.mul 1 2 3) := by decide
theorem test_decode_div : decode .listing 0b00000001000010010000000000000011#32 = .ok (.div 1 2 3) := by decide
theorem test_decode_imul : decode .listing 0b00000001100010010000000000000011#32 = .ok (.imul 1 2 3) := by decide
theorem test_decode_xidiv : decode .listing 0b00000010000010010000000000000011#32 = .ok (.xidiv 1 2 3) := by decide
theorem test_decode_and : decode .listing 0b00000010101000100000000000000101#32 = .ok (.and 4 4 5) := by decide
theorem test_decode_xor : decode .listing 0b00000011000010010000000000000011#32 = .ok (.xor 1 2 3) := by decide
theorem test_decode_nand : decode .listing 0b00000011100000000000000000000001#32 = .ok (.nand 0 0 1) := by decide
theorem test_decode_cmpge : decode .listing 0b00000100000010010000000000000011#32 = .ok (.cmpge 1 2 3) := by decide
theorem test_decode_lw : decode .listing 0b00000100100000001111111111111111#32 = .ok (.lw 0 1 (-1)) := by decide
theorem test_decode_sw : decode .listing 0b00000101000000011000000000001010#32 = .ok (.sw 0 3 10) := by decide
theorem test_decode_beq : decode .listing 0b00000101100000000100000000000000#32 = .ok (.beq 0 0 (-16384)) := by decide
theorem test_decode_jarl : decode .listing 0b00000110001010110000000000000000#32 = .ok (.jarl 5 6) := by decide
theorem test_decode_jmae : decode .listing 0b00000110100010010000000000000101#32 = .ok (.jmae 1 2 5) := by decide
theorem test_decode_jmnae : decode .listing 0b00000111000010010000000000000101#32 = .ok (.jmnae 1 2 5) := by decide
theorem test_decode_jne : decode .listing 0b00000111100000000000000000000101#32 = .ok (.jne 5) := by decide
theorem test_decode_halt : decode .listing 0b00001000011111111111111111111111#32 = .ok .halt := by decide
theorem test_decode_bsr : decode .listing 0b00001000100010010000000000000000#32 = .ok (.bsr 1 2) := by decide
theorem test_decode_bsf : decode .listing 0b00001001000010011000000000000000#32 = .ok (.bsf 1 3) := by decide
theorem test_decode_push : decode .listing 0b00001001111111110111111111111111#32 = .ok .push := by decide
theorem test_decode_pop : decode .listing 0b00001010000000000000000000000000#32 = .ok .pop := by decide

/-- V70 to V73: words that are no instruction. -/
theorem test_decode_rejects :
    decode .listing 0xFFFFFFFF#32 = .error (.reservedBits 15) ∧
    decode .listing 0x10000000#32 = .error (.reservedBits 1) ∧
    decode .listing 0x0A800000#32 = .error (.unassignedOpcode 21) ∧
    decode .listing 0x0F800000#32 = .error (.unassignedOpcode 31) := by decide

/-- V74 and S1: ignored bits, and the offsets at the ends of the field. -/
theorem test_decode_ignores_and_extends :
    decodeTableWord 32 0x0000FFF2 = some (.add 0 1 2) ∧
    decodeTableWord 32 0x07803FFF = some (.jne 16383) ∧
    decodeTableWord 32 0x07804000 = some (.jne (-16384)) := by decide

/-- Example words of R121, R128, R150, R160, R164. -/
theorem test_encode_words :
    encode .listing (.add 0 1 2) = 32770 ∧ encode .listing (.xidiv 1 2 3) = 34144259 ∧
    encode .listing (.lw 2 1 16383) = 76595199 ∧ encode .listing (.beq 0 0 (-4)) = 92307452 ∧
    encode .listing (.jarl 5 6) = 103481344 ∧ encode .listing .pop = 167772160 := by decide

/-! ## One instruction on a small state -/

/-- The reset state with some registers preset (R249). -/
def start (regs : List (Reg × Word)) : State := State.reset.preset regs

/-- The next state of an outcome, if it has one. -/
def nextOf : Result → Option State
  | .next s => some s
  | .fault _ => none
  | .refused _ => none

/-- What a test looks at in the next state of an instruction. -/
def see {α : Type} (f : State → α) (i : Instr) (s : State) : Option α := (nextOf (exec i s)).map f

/-- The fault record of a state, with its `pc`. -/
def fault (s : State) : Status × FaultCause × Word × Word := (s.status, s.faultCause, s.faultInfo, s.pc)

theorem test_add_wraps : -- V1
    see (fun t => (t.reg 3, t.pc)) (.add 1 2 3) (start [(1, 0x7FFFFFFF), (2, 1)]) = some (0x80000000, 1) := by decide
theorem test_add_doubles : -- V3
    see (fun t => t.reg 1) (.add 1 1 1) (start [(1, 0x80000000)]) = some 0 := by decide
theorem test_nand_not : -- V5
    see (fun t => t.reg 3) (.nand 1 1 3) (start [(1, 7)]) = some 0xFFFFFFF8 := by decide
theorem test_and : -- V6
    see (fun t => t.reg 3) (.and 1 2 3) (start [(1, 0x0F0F0F0F), (2, 0x00FFFF00)]) = some 0x000F0F00 := by decide
theorem test_xor : -- V8
    see (fun t => t.reg 3) (.xor 1 2 3) (start [(1, 0x0F0F0F0F), (2, 0x00FFFF00)]) = some 0x0FF0F00F := by decide
theorem test_xor_clears : -- V9
    see (fun t => t.reg 1) (.xor 1 1 1) (start [(1, 40)]) = some 0 := by decide
theorem test_mul_low : -- V12
    see (fun t => t.reg 3) (.mul 1 2 3) (start [(1, 0x12345678), (2, 0x10)]) = some 0x23456780 := by decide
theorem test_mul_ones : -- V11
    see (fun t => t.reg 3) (.mul 1 2 3) (start [(1, 0xFFFFFFFF), (2, 0xFFFFFFFF)]) = some 1 := by decide
theorem test_imul_negative : -- V14
    see (fun t => t.reg 3) (.imul 1 2 3) (start [(1, 0xFFFFFFF9), (2, 2)]) = some 0xFFFFFFF2 := by decide
theorem test_imul_wraps : -- V15
    see (fun t => t.reg 3) (.imul 1 2 3) (start [(1, 0x80000000), (2, 0xFFFFFFFF)]) = some 0x80000000 := by decide
theorem test_div_unsigned : -- V17
    see (fun t => t.reg 3) (.div 1 2 3) (start [(1, 0xFFFFFFF9), (2, 2)]) = some 2147483644 := by decide
theorem test_div_by_zero : -- V19
    see (fun t => (fault t, t.reg 3)) (.div 1 2 3) (start [(1, 5), (3, 6)]) =
      some ((.faulted, .divideError, 0, 0), 6) := by decide
theorem test_xidiv_aliases_b : -- V25
    see (fun t => (t.reg 1, t.reg 2)) (.xidiv 1 2 2) (start [(1, 0xFFFFFFF9), (2, 2)]) =
      some (0xFFFFFFFD, 0xFFFFFFF9) := by decide
theorem test_xidiv_overflow : -- V29
    see (fun t => (fault t, t.reg 1)) (.xidiv 1 2 3) (start [(1, 0x80000000), (2, 0xFFFFFFFF)]) =
      some ((.faulted, .divideError, 0, 0), 0x80000000) := by decide
theorem test_cmpge_signed : -- V32
    see (fun t => t.reg 3) (.cmpge 1 2 3) (start [(1, 0xFFFFFFFF), (3, 9)]) = some 0 := by decide
theorem test_cmpge_equal : -- V31
    see (fun t => t.reg 3) (.cmpge 1 2 3) (start [(1, 5), (2, 5)]) = some 1 := by decide
theorem test_lw_out_of_bounds : -- V37
    see fault (.lw 2 1 16383) (start [(2, 1)]) = some (.faulted, .memOutOfBounds, 16384, 0) := by decide
theorem test_lw_reads : -- V35
    see (fun t => (t.reg 1, t.pc)) (.lw 0 1 2) (start [] |>.setMem [(2, 99)]) = some (99, 1) := by decide
theorem test_sw_writes : -- V38
    see (fun t => (t.mem, t.pc)) (.sw 0 1 5) (start [(1, 0xFFFFFFFD)]) = some ([(5, 0xFFFFFFFD)], 1) := by decide
theorem test_sw_below_zero : -- R60
    see (fun t => (fault t, t.mem)) (.sw 0 1 (-1)) (start [(1, 7)]) =
      some ((.faulted, .memOutOfBounds, 0xFFFFFFFF, 0), []) := by decide

/-- The state of the control vectors: `pc` = 10. -/
def at10 (regs : List (Reg × Word)) : State := (start regs).jump 10

theorem test_beq_taken : -- V54
    see State.pc (.beq 1 2 5) (at10 [(1, 9), (2, 9)]) = some 16 := by decide
theorem test_beq_below_zero : -- V57
    see State.pc (.beq 0 0 (-16384)) (at10 []) = some (trunc32 (-16373)) := by decide
theorem test_jmae_signed : -- V59
    see State.pc (.jmae 1 2 5) (at10 [(1, 0xFFFFFFFF)]) = some 11 := by decide
theorem test_jmae_equal : -- V60
    see State.pc (.jmae 1 2 5) (at10 [(1, 3), (2, 3)]) = some 16 := by decide
theorem test_jmnae_signed : -- V61
    see State.pc (.jmnae 1 2 5) (at10 [(1, 0xFFFFFFFF)]) = some 16 := by decide
theorem test_jmnae_equal : -- V62
    see State.pc (.jmnae 1 2 5) (at10 [(1, 3), (2, 3)]) = some 11 := by decide
theorem test_jne_set : -- V63
    see (fun t => (t.pc, t.flag)) (.jne 5) ((at10 []).setFlag true) = some (16, true) := by decide
theorem test_jne_clear : -- V64
    see State.pc (.jne 5) (at10 []) = some 11 := by decide
theorem test_jarl_jumps : -- V65
    see (fun t => (t.pc, t.reg 3, t.reg 4)) (.jarl 3 4) (at10 [(3, 9), (4, 5)]) = some (9, 9, 11) := by decide
theorem test_jarl_equal : -- V67
    see (fun t => (t.pc, t.reg 3, t.reg 4)) (.jarl 3 4) (at10 [(3, 9), (4, 9)]) = some (11, 11, 9) := by decide
theorem test_halt : -- V68
    see (fun t => (t.pc, t.status)) .halt (at10 []) = some (11, .halted) := by decide
theorem test_bsr : -- V48
    see (fun t => (t.reg 2, t.flag)) (.bsr 1 2) (start [(1, 8)]) = some (28, true) := by decide
theorem test_bsr_zero : -- V46
    see (fun t => (t.reg 2, t.flag)) (.bsr 1 2) ((start []).setFlag true) = some (0xFFFFFFFF, false) := by decide
theorem test_bsf : -- V50
    see (fun t => (t.reg 3, t.flag)) (.bsf 1 3) (start [(1, 0x00010000)]) = some (16, true) := by decide
theorem test_bsf_zero : -- V46
    see (fun t => (t.reg 3, t.flag)) (.bsf 1 3) ((start []).setFlag true) = some (0xFFFFFFFF, false) := by decide
theorem test_push : -- V40
    see (fun t => (t.stack, t.sp, t.reg 1)) .push (start [(1, 40)]) = some ([40], 1, 40) := by decide
theorem test_push_full : -- V44
    see (fun t => (fault t, t.sp)) .push ((start []).setStack (List.replicate 32 0)) =
      some ((.faulted, .stackOverflow, 0, 0), 32) := by decide
theorem test_pop : -- V41
    see (fun t => (t.reg 1, t.sp)) .pop ((start []).setStack [40]) = some (40, 0) := by decide
theorem test_pop_empty : -- V42
    see (fun t => (fault t, t.reg 1)) .pop (start [(1, 3)]) = some ((.faulted, .stackUnderflow, 0, 0), 3) := by decide

/-! ## One step -/

/-- V75: the word 0 at the reset vector runs as `add 0 0 0`. -/
theorem test_step_from_reset :
    (nextOf (step State.reset)).map (fun t => (t.pc, t.icount, t.status)) = some (1, 1, .running) := by decide

/-- V45: a `push` with all its fields set pushes `x[1]`. -/
theorem test_step_push_ignores_fields :
    (nextOf (step ((start [(1, 7), (15, 9)]).withFetchWord 32 0x09FF7FFF))).map (fun t => (t.stack, t.icount)) =
      some ([7], 1) := by decide

/-- V70: a fetched word with its top bits set is the fault `MalformedOpcode` and is not counted. -/
theorem test_step_malformed :
    (nextOf (step (State.reset.withFetchWord 32 0xFFFFFFFF))).map (fun t => (fault t, t.icount)) =
      some ((.faulted, .malformedOpcode, 0xFFFFFFFF, 0), 0) := by decide

/-- P7, last step: a fetch at -1 faults with the bad address in `pc`. -/
theorem test_step_fetch_fault :
    (nextOf (step (State.reset.jump 0xFFFFFFFF))).map fault =
      some (.faulted, .memOutOfBounds, 0xFFFFFFFF, 0xFFFFFFFF) := by decide

/-- R31: no step after the end of a run. -/
theorem test_no_step_after_halt : (nextOf (step (State.reset.setStatus .halted))).isNone = true := by decide

/-! ## The host and the assembler -/

/-- Log entry 24, the model's choice: names that differ in letter case alone are two labels, and mnemonics are lower case. -/
theorem test_letter_case :
    Asm.assemble .default [['L', ' ', 'h', 'a', 'l', 't'], ['l', ' ', '.', 'f', 'i', 'l', 'l', ' ', 'l']] =
      .ok [0x08000000, 0x00000001] ∧
    Asm.assemble .default [[' ', 'H', 'A', 'L', 'T']] = .error .unknownMnemonic := by decide

open Asm in
/-- R95: the text of a program file, its ends and the lines it refuses: above and below the signed 32-bit range, and a newline after
the last line. -/
theorem test_program_file :
    fileText [0xFFFFFFFF, 0x00008002] = ['-', '1', '\n', '3', '2', '7', '7', '0'] ∧
    readFile ['-', '1', '\n', '3', '2', '7', '7', '0'] = some [0xFFFFFFFF, 0x00008002] ∧
    readFile ['2', '1', '4', '7', '4', '8', '3', '6', '4', '8'] = none ∧
    readFile ['-', '2', '1', '4', '7', '4', '8', '3', '6', '4', '8'] = some [0x80000000] ∧
    readFile ['-', '2', '1', '4', '7', '4', '8', '3', '6', '4', '9'] = none ∧
    readFile ['5', '\n'] = none := by decide

/-- Log entry 23, the model's choice: the spellings of a decimal integer. -/
theorem test_decimal_spellings :
    Asm.parseInt ['0', '0', '7'] = some 7 ∧ Asm.parseInt ['-', '0'] = some 0 ∧ Asm.parseInt ['+', '7'] = none ∧
    Asm.parseReg ['-', '0'] = .ok 0 ∧ Asm.parseReg ['-', '1'] = .error .badRegister := by decide

/-- U14: a program longer than memory has no launch state. -/
theorem test_launch_too_long : (State.launch { Config.default with memWords := 1 } [1, 2]).isNone = true := by decide

open Asm in
/-- P4: two lines with a backward label reference. -/
theorem test_assemble_backward :
    assemble .default
      [['l', 'o', 'o', 'p', ' ', 'p', 'u', 's', 'h'],
       [' ', 'b', 'e', 'q', ' ', '0', ' ', '0', ' ', 'l', 'o', 'o', 'p']] = .ok [0x09800000, 0x05807FFE] := by decide

open Asm in
/-- P6: an absolute label in `lw`, and `.fill`. -/
theorem test_assemble_fill :
    assemble .default
      [[' ', 'l', 'w', ' ', '0', ' ', '1', ' ', 'o', 'n', 'e'],
       [' ', 'd', 'i', 'v', ' ', '1', ' ', '0', ' ', '2'],
       [' ', 'h', 'a', 'l', 't'],
       ['o', 'n', 'e', ' ', '.', 'f', 'i', 'l', 'l', ' ', '1']] =
      .ok [0x04808003, 0x01080002, 0x08000000, 0x00000001] := by decide

open Asm in
/-- S6 and S10: a `pop` on an empty static stack, a label that begins with a digit, and a negative number as an offset (C8). -/
theorem test_assemble_rejects :
    assemble .default [[' ', 'p', 'o', 'p']] = .error .stackBalance ∧
    assemble .default [['1', 'a', ' ', 'h', 'a', 'l', 't']] = .error .badLabel ∧
    assemble .default [[' ', 'j', 'n', 'e', ' ', '-', '1']] = .error .badAddress ∧
    assemble .default [[' ', 'a', 'd', 'd', ' ', '0', ' ', '1', ' ', '1', '6']] = .error .badRegister ∧
    assemble .default [[' ', 'j', 'n', 'e', ' ', 'x', 'y']] = .error .undefinedLabel := by decide

/-! ## Witnesses: for every statement with hypotheses, concrete values that meet them, one for each clause and at the
boundaries of its ranges -/

/-- Reset with the word `w` at address 0 and some registers preset. -/
def withWord (w : Nat) (regs : List (Reg × Word)) : State := (start regs).withFetchWord 32 w

/-- The default configuration with the other reading of every open parameter. -/
def otherConfig : Config := { Config.default with jarlEq := .index, cmpSigned := false, xidivOvf := .wrap }

/-- Reset under `otherConfig`, with some registers preset. -/
def startOther (regs : List (Reg × Word)) : State := (State.resetWith otherConfig).preset regs

theorem witness_DecodeInvertsEncode :
    OpcMap.listing.injective = true ∧ (Instr.lw 15 0 (-16384)).wellFormed = true ∧
      (Instr.jne 16383).wellFormed = true := by decide

theorem witness_DecodeByFieldsOrRejects :
    OpcMap.listing.injective = true ∧ (0x10000000#32).extractLsb' 28 4 ≠ 0 ∧
    (∀ m, OpcMap.listing.code m ≠ (0x0A800000#32).extractLsb' 23 5) ∧
    (0x05807FFC#32).extractLsb' 28 4 = 0 ∧ OpcMap.listing.code .beq = (0x05807FFC#32).extractLsb' 23 5 := by
  refine ⟨by decide, by decide, ?_, by decide, by decide⟩
  intro m; cases m <;> decide

theorem witness_IgnoredFieldsDoNotMatter :
    decode .listing 0x00008002#32 = .ok (.add 0 1 2) ∧
      0x00008002#32 &&& 0xFFFF800F#32 = 0x0000FFF2#32 &&& 0xFFFF800F#32 ∧
    decode .listing 0x09800000#32 = .ok .push ∧
      0x09800000#32 &&& 0xFF800000#32 = 0x09FFFFFF#32 &&& 0xFF800000#32 := by decide

theorem witness_OffsetFieldSignExtends :
    ((0x3FFF#32).extractLsb' 0 15).toNat < 0x4000 ∧ 0x4000 ≤ ((0x4000#32).extractLsb' 0 15).toNat := by decide

theorem witness_ResetState : (0 : Int) ≤ 16383 ∧ (16383 : Int) < Config.default.memWords := by decide

theorem witness_LaunchLoadsProgram :
    { Config.default with memWords := 1 }.memWords < [1#32, 2#32].length ∧
    [1#32, 2#32].length ≤ { Config.default with memWords := 2 }.memWords ∧
    [1#32].length ≤ 1 ∧ 1 < { Config.default with memWords := 2 }.memWords := by decide

theorem witness_DivUnsignedQuotient : (start []).reg 2 = 0 ∧ (start [(2, 1)]).reg 2 ≠ 0 := by decide

theorem witness_XidivFaults :
    (start []).reg 2 = 0 ∧
    (let s := start [(1, 0x80000000), (2, 0xFFFFFFFF)]
     (s.reg 1).toInt = -2 ^ 31 ∧ (s.reg 2).toInt = -1 ∧ s.cfg.xidivOvf = .fault) := by decide

theorem witness_XidivQuotientThenExchange :
    (let s := start [(1, 0x80000000), (2, 1)]
     s.reg 2 ≠ 0 ∧ ¬((s.reg 1).toInt = -2 ^ 31 ∧ (s.reg 2).toInt = -1 ∧ s.cfg.xidivOvf = .fault)) ∧
    (let s := startOther [(1, 0x80000000), (2, 0xFFFFFFFF)]
     s.reg 2 ≠ 0 ∧ ¬((s.reg 1).toInt = -2 ^ 31 ∧ (s.reg 2).toInt = -1 ∧ s.cfg.xidivOvf = .fault)) := by decide

theorem witness_CmpgeWritesOneOrZero : (start []).cfg.cmpSigned = true ∧ (startOther []).cfg.cmpSigned = false := by decide

theorem witness_LoadWord :
    (let s := start [(2, 16384)]
     (0 ≤ (s.reg 0).toInt + 0 ∧ (s.reg 0).toInt + 0 < s.cfg.memWords) ∧
     (0 ≤ (s.reg 2).toInt + (-1) ∧ (s.reg 2).toInt + (-1) < s.cfg.memWords) ∧
     ¬(0 ≤ (s.reg 0).toInt + (-1) ∧ (s.reg 0).toInt + (-1) < s.cfg.memWords) ∧
     ¬(0 ≤ (s.reg 2).toInt + 0 ∧ (s.reg 2).toInt + 0 < s.cfg.memWords)) := by decide

theorem witness_StoreWord :
    (let s := start [(2, 16384)]
     (0 ≤ s.ea 0 0 ∧ s.ea 0 0 < s.cfg.memWords) ∧ (0 ≤ s.ea 2 (-1) ∧ s.ea 2 (-1) < s.cfg.memWords) ∧
     ¬(0 ≤ s.ea 0 (-1) ∧ s.ea 0 (-1) < s.cfg.memWords) ∧ ¬(0 ≤ s.ea 2 0 ∧ s.ea 2 0 < s.cfg.memWords)) := by decide

theorem witness_StoreThenLoad :
    (let s := start [(2, 16384)]
     0 ≤ s.ea 0 0 ∧ s.ea 0 0 < s.cfg.memWords ∧ 0 ≤ s.ea 2 (-1) ∧ s.ea 2 (-1) < s.cfg.memWords ∧
       s.ea 2 (-16384) = s.ea 0 0 ∧ s.ea 2 (-1) ≠ s.ea 0 0) := by decide

theorem witness_BeqBranches :
    (start []).reg 1 = (start []).reg 2 ∧ (start [(1, 1)]).reg 1 ≠ (start [(1, 1)]).reg 2 ∧
    (at10 []).status = .running ∧ see (fun t => decide (0 ≤ t.pc.toInt)) (.beq 0 0 (-12)) (at10 []) = some false ∧
    see (fun t => decide (t.pc.toInt = t.cfg.memWords)) (.beq 0 0 16373) (at10 []) = some true := by decide

theorem witness_OrderBranches :
    (let s := start [(1, 0xFFFFFFFF)]
     (False ↔ if s.cfg.cmpSigned = true then (s.reg 1).toInt ≥ (s.reg 2).toInt else (s.reg 1).toNat ≥ (s.reg 2).toNat) ∧
     (True ↔ if s.cfg.cmpSigned = true then (s.reg 2).toInt ≥ (s.reg 3).toInt else (s.reg 2).toNat ≥ (s.reg 3).toNat)) ∧
    (let s := startOther [(1, 0xFFFFFFFF)]
     (True ↔ if s.cfg.cmpSigned = true then (s.reg 1).toInt ≥ (s.reg 2).toInt else (s.reg 1).toNat ≥ (s.reg 2).toNat) ∧
     (False ↔ if s.cfg.cmpSigned = true then (s.reg 2).toInt ≥ (s.reg 1).toInt else (s.reg 2).toNat ≥ (s.reg 1).toNat)) := by
  decide

theorem witness_JneTestsFlagOnly : (State.reset.setFlag true).flag = true ∧ State.reset.flag = false := by decide

theorem witness_HaltStops : (withWord 0x08000000 []).status = .running ∧ (withWord 0x08000000 []).fetch = .ok .halt :=
  ⟨by decide, rfl⟩

theorem witness_JarlLinksAndJumps :
    (let s := start [(3, 9), (4, 9)]
     (True ↔ if s.cfg.jarlEq = .value then s.reg 3 = s.reg 4 else (3 : Reg) = 4) ∧
     (False ↔ if s.cfg.jarlEq = .value then s.reg 3 = s.reg 5 else (3 : Reg) = 5)) ∧
    (let s := startOther [(3, 9), (4, 9)]
     (False ↔ if s.cfg.jarlEq = .value then s.reg 3 = s.reg 4 else (3 : Reg) = 4) ∧
     (True ↔ if s.cfg.jarlEq = .value then s.reg 3 = s.reg 3 else (3 : Reg) = 3)) := by decide

theorem witness_JarlReadingsAgree :
    ∃ (s t : State) (c : Config), c = { s.cfg with jarlEq := c.jarlEq } ∧ c ≠ s.cfg ∧
      ¬((3 : Reg) ≠ 4 ∧ s.reg 3 = s.reg 4) ∧ exec (.jarl 3 4) s = .next t :=
  ⟨start [(3, 9)], ((start [(3, 9)]).setReg 4 1).jump 9, { Config.default with jarlEq := .index },
    rfl, by decide, by decide, rfl⟩

theorem witness_BsrCountsFromTop : (start []).reg 1 = 0 ∧ (start [(1, 1)]).reg 1 ≠ 0 := by decide

theorem witness_BsfCountsFromBottom :
    (start []).reg 1 = 0 ∧ (start [(1, 0x80000000)]).reg 1 ≠ 0 ∧
    (start [(1, 0x80000000)]).reg 1 = BitVec.twoPow 32 31 ∧ (start [(1, 1)]).reg 1 = BitVec.twoPow 32 0 := by decide

/-- Reset with `n` zero words on the stack. -/
def stacked (n : Nat) : State := State.reset.setStack (List.replicate n 0)

theorem witness_PushStoresRegisterOne : (stacked 31).sp < 32 ∧ 32 ≤ (stacked 32).sp := by decide

theorem witness_PopLoadsRegisterOne : 0 < (stacked 1).sp ∧ (stacked 0).sp = 0 := by decide

theorem witness_PopAfterPushRestores : (stacked 31).sp < 32 := by decide

theorem witness_RegisterFootprint :
    (3 : Reg) ∉ readsOf (.add 1 2 3) ∧ (1 : Reg) ∉ readsOf .pop ∧ (2 : Reg) ∉ readsOf (.lw 1 2 0) := by decide

theorem witness_OnlyBranchesMovePcElsewhere :
    (start []).status ≠ .faulted ∧
    (∃ t, exec (.div 1 2 3) (start []) = .next t ∧ t.status = .faulted) ∧
    (∃ t, exec (.beq 1 2 5) (at10 []) = .next t ∧ t.status ≠ .faulted ∧ ¬PcAdvanced (at10 []) t) ∧
    (∃ t, exec (.jarl 3 4) (at10 [(3, 9)]) = .next t ∧ t.status ≠ .faulted ∧ ¬PcAdvanced (at10 [(3, 9)]) t) :=
  ⟨by decide, ⟨_, rfl, rfl⟩, ⟨_, rfl, by decide, by unfold PcAdvanced; decide⟩,
    ⟨_, rfl, by decide, by unfold PcAdvanced; decide⟩⟩

theorem witness_StepRunsDecoded :
    (let s := withWord 0x00008002 []
     s.status = .running ∧ s.memRead s.pc.toInt = some 0x00008002 ∧ decode s.cfg.opc 0x00008002 = .ok (.add 0 1 2) ∧
       ∃ t, exec (.add 0 1 2) s = .next t ∧ t.status ≠ .faulted) ∧
    (let s := withWord 0x01000000 []
     s.status = .running ∧ s.memRead s.pc.toInt = some 0x01000000 ∧ decode s.cfg.opc 0x01000000 = .ok (.div 0 0 0) ∧
       ∃ t, exec (.div 0 0 0) s = .next t ∧ t.status = .faulted) :=
  ⟨⟨by decide, by decide, by decide, _, rfl, by decide⟩, ⟨by decide, by decide, by decide, _, rfl, by decide⟩⟩

theorem witness_FetchFaults :
    (let s := State.reset.jump 0xFFFFFFFF
     s.status = .running ∧ ¬(0 ≤ s.pc.toInt ∧ s.pc.toInt < s.cfg.memWords)) ∧
    (let s := State.reset.jump 16384
     s.status = .running ∧ ¬(0 ≤ s.pc.toInt ∧ s.pc.toInt < s.cfg.memWords)) ∧
    (let s := withWord 0x10000000 []
     s.status = .running ∧ s.memRead s.pc.toInt = some 0x10000000 ∧ (0x10000000#32).extractLsb' 28 4 ≠ 0) ∧
    (let s := withWord 0x0A800000 []
     s.status = .running ∧ s.memRead s.pc.toInt = some 0x0A800000 ∧
       ∀ m, s.cfg.opc.code m ≠ (0x0A800000#32).extractLsb' 23 5) := by
  refine ⟨by decide, by decide, by decide, by decide, by decide, ?_⟩
  intro m; cases m <;> decide

theorem witness_NoStepAfterTheEnd :
    ∃ s t : State, s.status = .halted ∧ t.status = .faulted ∧ Reaches s s ∧ Reaches t t ∧
      s.status ≠ .running ∧ t.status ≠ .running :=
  ⟨State.reset.setStatus .halted, State.reset.raise .divideError 0, by decide, by decide, .refl _, .refl _,
    by decide, by decide⟩

theorem witness_RunningCoreAlwaysSteps : State.reset.status = .running := by decide

/-- Every cause of R201 is raised in some running state. -/
theorem witness_StepFaultsExactly :
    Raises (State.reset.jump 16384) .memOutOfBounds 16384 ∧
    Raises (withWord 0x10000000 []) .malformedOpcode 0x10000000 ∧
    Raises (withWord 0x01090003 []) .divideError 0 ∧
    Raises (withWord 0x02090003 []) .divideError 0 ∧
    Raises (withWord 0x02090003 [(1, 0x80000000), (2, 0xFFFFFFFF)]) .divideError 0 ∧
    Raises (withWord 0x0480FFFF []) .memOutOfBounds 0xFFFFFFFF ∧
    Raises (withWord 0x0500FFFF []) .memOutOfBounds 0xFFFFFFFF ∧
    Raises ((withWord 0x09800000 []).setStack (List.replicate 32 0)) .stackOverflow 0 ∧
    Raises (withWord 0x0A000000 []) .stackUnderflow 0 :=
  ⟨.fetch (by decide), .decode _ (by decide) (.inl (by decide)), .div 1 2 3 rfl (by decide),
    .xidivZero 1 2 3 rfl (by decide), .xidivOverflow 1 2 3 rfl (by decide) (by decide) (by decide),
    .load 0 1 (-1) rfl (by decide), .store 0 1 (-1) rfl (by decide), .push rfl (by decide), .pop rfl (by decide)⟩

theorem witness_FaultsArePrecise : ∃ t, step (withWord 0x0A000000 []) = .next t ∧ t.status = .faulted := ⟨_, rfl, by decide⟩

theorem witness_CompletedStepsAreCounted :
    (∃ t, step (withWord 0x08000000 []) = .next t ∧ t.status ≠ .faulted) ∧
    (∃ t, step (withWord 0x0A000000 []) = .next t ∧ t.status = .faulted) := ⟨⟨_, rfl, by decide⟩, ⟨_, rfl, by decide⟩⟩

theorem witness_WhoWritesWhat :
    (∃ t, step (withWord 0x08890000 [(1, 8)]) = .next t ∧ t.flag ≠ (withWord 0x08890000 [(1, 8)]).flag) ∧
    (∃ t, step (withWord 0x09800000 []) = .next t ∧ t.stack ≠ (withWord 0x09800000 []).stack) ∧
    (∃ t, step (withWord 0x05008005 [(1, 7)]) = .next t ∧ t.mem ≠ (withWord 0x05008005 [(1, 7)]).mem) ∧
    (∃ t, step (withWord 0x08000000 []) = .next t ∧ t.status = .halted) ∧
    (∃ t, step (withWord 0x0A000000 []) = .next t ∧ t.status = .faulted) :=
  ⟨⟨_, rfl, by decide⟩, ⟨_, rfl, by decide⟩, ⟨_, rfl, by decide⟩, ⟨_, rfl, by decide⟩, ⟨_, rfl, by decide⟩⟩

/-- A legal state with a full stack and a listed memory word. -/
theorem witness_StepKeepsInv :
    ((withWord 0x08000000 [(1, 7)]).setStack (List.replicate 32 0)).Inv ∧
      ∃ t, step ((withWord 0x08000000 [(1, 7)]).setStack (List.replicate 32 0)) = .next t :=
  ⟨⟨by decide, by decide, by decide, by decide, by decide⟩, _, rfl⟩

theorem witness_ResetAndLaunchAreLegal :
    Config.default.legal = true ∧ otherConfig.legal = true ∧
    (State.launch { Config.default with memWords := 2 } [1, 2]).isSome = true := by decide

theorem witness_StoreIsSeenByNextFetch :
    (let s := withWord 0x05008001 [(1, 0x08000000)]
     s.cfg.memWordsLegal = true ∧ (∃ t, step s = .next t) ∧ s.fetch = .ok (.sw 0 1 1) ∧
       s.ea 0 1 = s.pc.toInt + 1 ∧ s.ea 0 1 < s.cfg.memWords ∧ decode s.cfg.opc (s.reg 1) = .ok .halt) :=
  ⟨by decide, ⟨_, rfl⟩, rfl, by decide, by decide, by decide⟩

theorem witness_StepTransactions :
    (∃ t, step (withWord 0x04810007 []) = .next t ∧ t.status ≠ .faulted) ∧
    (withWord 0x04810007 []).fetch = .ok (.lw 0 2 7) ∧
    (withWord 0x04810007 []).transactions = [.read 0 0x04810007, .read 7 0] ∧
    (∃ t, step (withWord 0x05008005 [(1, 7)]) = .next t ∧ t.status ≠ .faulted ∧
      t.memRead 5 ≠ (withWord 0x05008005 [(1, 7)]).memRead 5) ∧
    (withWord 0x05008005 [(1, 7)]).fetch = .ok (.sw 0 1 5) ∧
    (withWord 0x05008005 [(1, 7)]).transactions = [.read 0 0x05008005, .write 5 7] ∧
    (∃ t, step (withWord 0x00008002 []) = .next t ∧ t.status ≠ .faulted) ∧
    (∀ a b off, (withWord 0x00008002 []).fetch ≠ .ok (.lw a b off) ∧ (withWord 0x00008002 []).fetch ≠ .ok (.sw a b off)) ∧
    (∃ t, step (withWord 0x0500FFFF [(1, 7)]) = .next t ∧ t.status = .faulted) :=
  ⟨⟨_, rfl, by decide⟩, rfl, by decide, ⟨_, rfl, by decide, by decide⟩, rfl, by decide, ⟨_, rfl, by decide⟩,
    fun a b off => by
      have h : (withWord 0x00008002 []).fetch = .ok (.add 0 1 2) := rfl
      simp [h],
    ⟨_, rfl, by decide⟩⟩

theorem witness_PcSumsDoNotWrap :
    (let s := (State.resetWith { Config.default with memWords := 2 ^ 31 - 2 ^ 15 }).jump (BitVec.ofNat 32 (2 ^ 31 - 2 ^ 15 - 1))
     s.cfg.memWordsLegal = true ∧ 0 ≤ s.pc.toInt ∧ s.pc.toInt < s.cfg.memWords ∧
       offsetInRange 16383 = true ∧ offsetInRange (-16384) = true) := by decide

theorem witness_WrappedAddressAgrees :
    (let s := start [(1, 0x7FFFFFFF), (2, 0x80000000)]
     s.cfg.memWordsLegal = true ∧ offsetInRange 16383 = true ∧ offsetInRange (-16384) = true ∧
       s.inMemory (s.ea 1 16383) = false ∧ s.inMemory (s.ea 2 (-16384)) = false ∧ s.inMemory (s.ea 0 16383) = true) := by
  decide

theorem witness_BoundedRuns :
    (∃ t, run 1 (withWord 0x08000000 []) = .halted t ∧ Completes (withWord 0x08000000 []) t) ∧
    (∃ t, run 1 (withWord 0x0A000000 []) = .faulted t ∧ Reaches (withWord 0x0A000000 []) t ∧ t.status = .faulted) ∧
    (∃ t, run 0 (withWord 0x08000000 []) = .outOfFuel t) :=
  ⟨⟨_, rfl, .tail _ _ _ (.refl _) rfl, by decide⟩, ⟨_, rfl, .tail _ _ _ (.refl _) rfl, by decide⟩, ⟨_, rfl⟩⟩

theorem witness_ReachableStatesAreLegal :
    ∃ s t : State, Config.default.legal = true ∧ State.launch .default [0x08000000] = some s ∧
      Reaches s t ∧ t.status = .halted :=
  ⟨_, _, by decide, rfl, .tail _ _ _ (.refl _) rfl, by decide⟩

open Asm in
theorem witness_LabelOffsetReachesLabel :
    Labels.address [(['l'], 0)] ['l'] = .ok 0 ∧ resolve [(['l'], 0)] .beq 1 (.sym ['l']) = .ok (-2) ∧
    resolve [(['l'], 0)] .lw 1 (.sym ['l']) = .ok 0 ∧ (State.reset.jump 1).pc.toInt = (1 : Nat) := by decide

open Asm in
theorem witness_AssembledProgramFits : assemble .default [[' ', 'h', 'a', 'l', 't']] = .ok [0x08000000] := by decide

/-- The program of no words (log entry 17) and programs up to the size of memory. -/
theorem witness_ProgramFileRoundTrip :
    ([] : List Word).length ≤ { Config.default with memWords := 1 }.memWords ∧ readFile (fileText []) = some [] ∧
    [0x08000000#32] ≠ [] ∧ [0x08000000#32].length ≤ { Config.default with memWords := 1 }.memWords := by decide

theorem witness_ProgramFileIsChecked :
    (let text := ['-', '1', '\n', '5']
     readFile text = some [0xFFFFFFFF, 5] ∧ text ≠ []) ∧
    (let text := ['2', '1', '4', '7', '4', '8', '3', '6', '4', '8']
     text ∈ Asm.cut '\n' text ∧ text ≠ [] ∧ Asm.parseInt text = some (2 ^ 31)) ∧
    (let text := ['5', '\n', 'x']
     ['x'] ∈ Asm.cut '\n' text ∧ text ≠ [] ∧ Asm.parseInt ['x'] = none) := by decide

end Sys2Proof.Tests
end

section
/-! Decoding inverts encoding on well-formed instructions; encoding does not invert decoding (spec/30_encoding.md R93). -/

namespace Sys2Proof

/-- Every encoded word is `encodeFields` of its mnemonic's opcode, so its head decodes (R81, R82, R92). -/
theorem encode_head (i : Instr) : Laws.EncodeHead.Statement i :=
  Laws.EncodeHead.of_fields fun _ => by cases i <;> exact ⟨_, _, _, rfl⟩

/-- The operand fields of an encoded word are the instruction's own; the format decides which of them are compared (R83). -/
theorem ofFields_encode (o : OpcMap) {i : Instr} (h : i.wellFormed = true) :
    Instr.ofFields i.mnemonic (fieldA (encode o i)) (fieldB (encode o i)) (fieldC (encode o i)) (fieldOff (encode o i)) =
      i := by
  cases i with
  | add | mul | div | imul | xidiv | and | xor | nand | cmpge =>
    simp only [encode, Instr.mnemonic, Instr.ofFields, fieldA_encodeFields, fieldB_encodeFields, fieldC_encodeFields]
  | lw _ _ off | sw _ _ off | beq _ _ off | jmae _ _ off | jmnae _ _ off | jne off =>
    have hoff : offsetInRange off = true := h
    simp only [encode, Instr.mnemonic, Instr.ofFields, fieldA_encodeFields, fieldB_encodeFields,
      fieldOff_encodeFields _ _ _ hoff]
  | jarl | bsr | bsf =>
    simp only [encode, Instr.mnemonic, Instr.ofFields, fieldA_encodeFields, fieldB_encodeFields]
  | halt | push | pop => rfl

/-- Decoding inverts encoding on well-formed instructions, under an injective opcode map (R93). -/
theorem decode_encode {o : OpcMap} (ho : o.injective = true) {i : Instr} (hi : i.wellFormed = true) :
    decode o (encode o i) = .ok i := by
  obtain ⟨htop, hop⟩ := encode_head i o
  have hlookup : o.lookup (fieldOp (encode o i)) = some i.mnemonic := by rw [hop, OpcMap.lookup_code ho]
  exact decode_eq_ok.2 ⟨htop, i.mnemonic, hlookup, (ofFields_encode o hi).symm⟩

/-- `push` uses no operand field: whatever its word holds in bits 14:0 is dropped (R83, R87). -/
theorem decode_pushWord {o : OpcMap} (ho : o.injective = true) (f : BitVec 15) :
    decode o (encodeFields o.push 0 0 f) = .ok .push := by
  have hlookup : o.lookup (fieldOp (encodeFields o.push 0 0 f)) = some .push := by
    rw [fieldOp_encodeFields]
    exact OpcMap.lookup_code ho .push
  exact decode_eq_ok.2 ⟨fieldTop_encodeFields _ _ _ _, .push, hlookup, rfl⟩

/-- The field `F` can be read back from the encoded word, so different ones give different words. -/
theorem encodeFields_ne_of_ne (op : BitVec 5) (a b : Reg) {f g : BitVec 15} (h : f ≠ g) :
    encodeFields op a b f ≠ encodeFields op a b g := fun e =>
  h (by rw [← low_encodeFields op a b f, e, low_encodeFields])

/-- Settles O2: the round trip field by field; for the converse, the word of `push` with bit 0 set decodes to `push`, whose
own word has that bit 0. -/
theorem decodeInvertsEncode : Obligations.DecodeInvertsEncode := by
  refine ⟨fun _ _ ho hi => decode_encode ho hi, fun o ho => ⟨encodeFields o.push 0 0 1, .push, decode_pushWord ho 1, ?_⟩⟩
  exact encodeFields_ne_of_ne o.push 0 0 (by decide : (0 : BitVec 15) ≠ 1)

end Sys2Proof
end

section
/-! The bitwise instructions `nand`, `and`, `xor`: one frame shared by all three, and the bits of each result
(spec/40_arith_logic_compare.md R122, R123, R124). -/

namespace Sys2Proof.Machine

theorem exec_nand (a b c : Reg) (s : State) :
    exec (.nand a b c) s = .next (s.writeResult (fun x y => ~~~(x &&& y)) a b c) := rfl

theorem exec_and (a b c : Reg) (s : State) :
    exec (.and a b c) s = .next (s.writeResult (fun x y => x &&& y) a b c) := rfl

theorem exec_xor (a b c : Reg) (s : State) :
    exec (.xor a b c) s = .next (s.writeResult (fun x y => x ^^^ y) a b c) := rfl

/-- `f` works on all 32 bit positions independently: each bit of the result is `g` of that bit of both sources. -/
def ActsBitwise (f : Word → Word → Word) (g : Bool → Bool → Bool) : Prop :=
  ∀ x y : Word, ∀ k < 32, (f x y).getLsbD k = g (x.getLsbD k) (y.getLsbD k)

theorem actsBitwise_nand : ActsBitwise (fun x y => ~~~(x &&& y)) fun p q => !(p && q) := fun x y k hk => by
  rw [BitVec.getLsbD_not, BitVec.getLsbD_and, decide_eq_true hk, Bool.true_and]

theorem actsBitwise_and : ActsBitwise (fun x y => x &&& y) fun p q => p && q := fun _ _ _ _ => BitVec.getLsbD_and

theorem actsBitwise_xor : ActsBitwise (fun x y => x ^^^ y) fun p q => p ^^ q := fun _ _ _ _ => BitVec.getLsbD_xor

/-- An instruction that writes the result of a bitwise operation completes with the operation's bits in `x[C]`, and changes
nothing else but `pc` (R120). -/
theorem completes_of_actsBitwise {i : Instr} {s : State} {f : Word → Word → Word} {g : Bool → Bool → Bool} {a b c : Reg}
    (hexec : exec i s = .next (s.writeResult f a b c)) (hbits : ActsBitwise f g) :
    ∃ t, exec i s = .next t ∧
      (∀ k < 32, (t.reg c).getLsbD k = g ((s.reg a).getLsbD k) ((s.reg b).getLsbD k)) ∧
      RegsSame s t [c] ∧ PcAdvanced s t ∧ ControlSame s t ∧ MemSame s t := by
  obtain ⟨hres, hframe⟩ := writeResult_spec s f a b c
  exact ⟨_, hexec, hres ▸ hbits (s.reg a) (s.reg b), hframe⟩

/-- Settles O10: each of the three writes the result of an operation on single bits. -/
theorem bitwiseResults : Obligations.BitwiseResults := fun s a b c =>
  ⟨completes_of_actsBitwise (exec_nand a b c s) actsBitwise_nand,
    completes_of_actsBitwise (exec_and a b c s) actsBitwise_and,
    completes_of_actsBitwise (exec_xor a b c s) actsBitwise_xor⟩

end Sys2Proof.Machine
end

section
/-! The bit scans `bsr` and `bsf`: what a scan that finds nothing or an index leaves in `x[B]` and `FLAG`, and what both find
in a word with one 1 bit (spec/43_bitscan_stack.md R180, R181). -/

namespace Sys2Proof.Machine

theorem exec_bsr (a b : Reg) (s : State) : exec (.bsr a b) s = .next (s.writeScan scanFromTop a b) := rfl

theorem exec_bsf (a b : Reg) (s : State) : exec (.bsf a b) s = .next (s.writeScan scanFromBottom a b) := rfl

/-- A scan that finds no 1 bit answers -1, whose pattern is all ones, and clears the flag. -/
theorem writeScan_of_none {s : State} {scan : Word → Option Nat} {a : Reg} (b : Reg) (h : scan (s.reg a) = none) :
    (s.writeScan scan a b).reg b = 0xFFFFFFFF#32 ∧ (s.writeScan scan a b).flag = false := by
  rw [writeScan_reg, writeScan_flag, h]
  exact ⟨by decide, rfl⟩

/-- A scan that finds a 1 bit answers its index and sets the flag. -/
theorem writeScan_of_some {s : State} {scan : Word → Option Nat} {a : Reg} {k : Nat} (b : Reg)
    (h : scan (s.reg a) = some k) :
    (s.writeScan scan a b).reg b = BitVec.ofNat 32 k ∧ (s.writeScan scan a b).flag = true := by
  rw [writeScan_reg, writeScan_flag, h]
  exact ⟨rfl, rfl⟩

/-- An index of 0 .. 31 is read back as a number from the register it was written to. -/
theorem toNat_reg_writeScan {s : State} {scan : Word → Option Nat} {a : Reg} {k : Nat} (b : Reg)
    (h : scan (s.reg a) = some k) (hk : k < 32) : ((s.writeScan scan a b).reg b).toNat = k := by
  rw [(writeScan_of_some b h).1, BitVec.toNat_ofNat]
  exact Nat.mod_eq_of_lt (lt_trans hk (by decide))

/-! ## A word with a single 1 bit -/

/-- The only 1 bit of `2 ^ k` is bit `k`. -/
theorem eq_of_getLsbD_twoPow {k j : Nat} (h : (BitVec.twoPow 32 k).getLsbD j = true) : j = k := by
  rw [BitVec.getLsbD_twoPow, Bool.and_eq_true, decide_eq_true_eq, decide_eq_true_eq] at h
  exact h.2.symm

theorem twoPow_ne_zero {k : Nat} (hk : k < 32) : BitVec.twoPow 32 k ≠ 0 := fun h => by
  have hbit : (BitVec.twoPow 32 k).getLsbD k = true := by simp [hk]
  simp [h] at hbit

theorem scanFromBottom_twoPow {k : Nat} (hk : k < 32) : scanFromBottom (BitVec.twoPow 32 k) = some k := by
  obtain ⟨j, hscan, -, hbit, -⟩ := scanFromBottom_of_ne (twoPow_ne_zero hk)
  rw [hscan, eq_of_getLsbD_twoPow hbit]

theorem scanFromTop_twoPow {k : Nat} (hk : k < 32) : scanFromTop (BitVec.twoPow 32 k) = some (31 - k) := by
  obtain ⟨j, hscan, hj, hbit, -⟩ := scanFromTop_of_ne (twoPow_ne_zero hk)
  have hjk : 31 - j = k := eq_of_getLsbD_twoPow hbit
  rw [hscan, show j = 31 - k by omega]

/-- The results of `bsr` and `bsf` on a word with a single 1 bit, and that they sum to 31 (R181). -/
theorem writeScan_of_twoPow {s : State} {a : Reg} {k : Nat} (b : Reg) (hk : k < 32)
    (h : s.reg a = BitVec.twoPow 32 k) :
    ((s.writeScan scanFromBottom a b).reg b).toNat = k ∧ ((s.writeScan scanFromTop a b).reg b).toNat = 31 - k ∧
      ((s.writeScan scanFromTop a b).reg b).toNat + ((s.writeScan scanFromBottom a b).reg b).toNat = 31 := by
  have hbottom : ((s.writeScan scanFromBottom a b).reg b).toNat = k :=
    toNat_reg_writeScan b (h ▸ scanFromBottom_twoPow hk) hk
  have htop : ((s.writeScan scanFromTop a b).reg b).toNat = 31 - k :=
    toNat_reg_writeScan b (h ▸ scanFromTop_twoPow hk) (by omega)
  exact ⟨hbottom, htop, by omega⟩

/-! ## The obligations -/

/-- Settles O27: the scan finds nothing exactly in the word 0; otherwise the index it finds is 31 less the
logarithm of the word. -/
theorem bsrCountsFromTop : Obligations.BsrCountsFromTop := by
  intro s a b
  refine ⟨_, exec_bsr a b s, fun h => writeScan_of_none b (scanFromTop_eq_none.2 h), fun h => ?_, writeScan_frame s _ a b⟩
  obtain ⟨k, hscan, hk, hbit, habove⟩ := scanFromTop_of_ne h
  obtain ⟨hreg, hflag⟩ := writeScan_of_some b hscan
  exact ⟨hflag, k, hk, hreg, hbit, habove, eq_sub_log2 hk hbit habove⟩

/-- Settles O28: the scan finds nothing exactly in the word 0, otherwise the lowest 1 bit; on a single 1 bit both scans
find that bit, numbered from the two ends. -/
theorem bsfCountsFromBottom : Obligations.BsfCountsFromBottom := by
  intro s a b
  refine ⟨_, exec_bsf a b s, fun h => writeScan_of_none b (scanFromBottom_eq_none.2 h), fun h => ?_,
    fun k hk h => ⟨_, exec_bsr a b s, writeScan_of_twoPow b hk h⟩, writeScan_frame s _ a b⟩
  obtain ⟨k, hscan, hk, hbit, hbelow⟩ := scanFromBottom_of_ne h
  obtain ⟨hreg, hflag⟩ := writeScan_of_some b hscan
  exact ⟨hflag, k, hk, hreg, hbit, hbelow⟩

end Sys2Proof.Machine
end

section
/-! Every step from a legal state gives a legal state, and so does every run from a launch state (spec/10_state.md sections 5 to 7,
spec/60_exceptions.md section 3). -/

namespace Sys2Proof.Machine

/-! ## What keeps the parts of a legal state -/

/-- A fault of a real cause leaves a legal state legal: nothing but the fault record changes (R208). -/
theorem State.Inv.raise {s : State} (h : s.Inv) {c : FaultCause} (hc : c ≠ .noFault) (info : Word) :
    (s.raise c info).Inv where
  cfg := h.cfg
  memWf := h.memWf
  memBound := h.memBound
  stack := h.stack
  record := ⟨⟨fun _ => hc, fun _ => rfl⟩, fun e => absurd e hc⟩

/-- Counting an instruction keeps a legal state legal. -/
theorem State.Inv.tick {s : State} (h : s.Inv) : s.tick.Inv where
  cfg := h.cfg
  memWf := h.memWf
  memBound := h.memBound
  stack := h.stack
  record := h.record

theorem State.Inv.faultCause_of_running {s : State} (h : s.Inv) (run : s.status = .running) : s.faultCause = .noFault := by
  by_contra hc
  have hfaulted : s.status = .faulted := h.record.1.2 hc
  simp [run] at hfaulted

/-- A completed instruction leaves memory as it was or writes one word, and both keep the canonical form. -/
theorem Completed.memWf {i : Instr} {s t : State} (h : Completed i s t) (hs : s.mem.wf = true) : t.mem.wf = true := by
  rcases h.mem with e | ⟨a, b, off, -, -, e⟩
  · rw [e]
    exact hs
  · rw [e]
    exact s.mem.wf_write _ _ hs

/-- The one address a completed instruction can list anew was checked by its store (R53). -/
theorem Completed.memInBounds {i : Instr} {s t : State} (h : Completed i s t) (hs : s.memInBounds) : t.memInBounds := by
  intro p hp
  rw [h.cfg]
  rcases h.mem with e | ⟨a, b, off, -, hea, e⟩
  · exact hs p (e ▸ hp)
  · rcases Memory.mem_write (e ▸ hp) with rfl | hold
    · have : (s.ea a off).toNat < s.cfg.memWords := by omega
      exact this
    · exact hs p hold

/-- Only `push` makes the stack longer, and it needs a free entry (R182). -/
theorem Completed.sp_le {i : Instr} {s t : State} (h : Completed i s t) (hs : s.sp ≤ Config.stackCap) :
    t.sp ≤ Config.stackCap := by
  unfold State.sp at hs ⊢
  rcases h.stack with e | ⟨-, hfree, e⟩ | ⟨-, v, e⟩
  · rwa [e]
  · rw [e]
    exact hfree
  · rw [e, List.length_cons] at hs
    omega

/-- Completing an instruction keeps the empty fault record of a running core. -/
theorem Completed.faultRecordOk {i : Instr} {s t : State} (h : Completed i s t) (hs : s.Inv) (run : s.status = .running) :
    t.faultRecordOk := by
  have hcause : s.faultCause = .noFault := hs.faultCause_of_running run
  have hstatus : t.status ≠ .faulted := h.status_ne_faulted (by simp [run])
  refine ⟨⟨fun e => absurd e hstatus, fun e => absurd (h.faultCause.trans hcause) e⟩, fun _ => ?_⟩
  rw [h.faultInfo]
  exact hs.record.2 hcause

theorem Completed.inv {i : Instr} {s t : State} (h : Completed i s t) (hs : s.Inv) (run : s.status = .running) : t.Inv where
  cfg := h.cfg ▸ hs.cfg
  memWf := h.memWf hs.memWf
  memBound := h.memInBounds hs.memBound
  stack := h.sp_le hs.stack
  record := h.faultRecordOk hs run

/-- What the next state of a step is: the state with a fault recorded, or the counted next state of the instruction it fetched. -/
theorem step_inv {s t : State} (h : step s = .next t) :
    (∃ c info, c ≠ .noFault ∧ t = s.raise c info) ∨
      ∃ i u, s.fetch = .ok i ∧ exec i s = .next u ∧ Completed i s u ∧ t = u.tick := by
  rcases step_cases (running_of_step h) with ⟨c, info, hc, hnext⟩ | ⟨i, u, hfetch, hexec, hu, hnext⟩
  · exact .inl ⟨c, info, hc, Host.Outcome.next.inj (h.symm.trans hnext)⟩
  · exact .inr ⟨i, u, hfetch, hexec, hu, Host.Outcome.next.inj (h.symm.trans hnext)⟩

/-- Settles O42: a step takes a fault or completes an instruction, and each keeps the parts of a legal state. -/
theorem stepKeepsInv : Obligations.StepKeepsInv := by
  intro s t hs hstep
  rcases step_inv hstep with ⟨c, info, hc, rfl⟩ | ⟨i, u, -, -, hu, rfl⟩
  · exact hs.raise hc info
  · exact (hu.inv hs (running_of_step hstep)).tick

/-! ## Reset, launch, and the states a run reaches -/

theorem State.resetWith_inv {c : Config} (hc : c.legal = true) : (State.resetWith c).Inv where
  cfg := hc
  memWf := rfl
  memBound := fun _ hp => absurd hp List.not_mem_nil
  stack := Nat.zero_le _
  record := ⟨by simp [State.resetWith], fun _ => rfl⟩

theorem State.launch_eq_some {c : Config} {program : List Word} {s : State} :
    State.launch c program = some s ↔
      program.length ≤ c.memWords ∧ s = (State.resetWith c).setMem (Memory.load 0 program []) := by
  unfold State.launch
  split
  · next h => simp [h, eq_comm, State.setMem]
  · next h => simp [h]

theorem State.launch_inv {c : Config} {program : List Word} {s : State} (hc : c.legal = true)
    (h : State.launch c program = some s) : s.Inv := by
  obtain ⟨hlen, rfl⟩ := State.launch_eq_some.1 h
  have hreset := State.resetWith_inv hc
  refine ⟨hc, Memory.wf_load program 0 [] rfl, fun p hp => ?_, hreset.stack, hreset.record⟩
  rcases Memory.mem_load hp with hrange | hnil
  · have : p.1 < c.memWords := by omega
    exact this
  · exact absurd hnil List.not_mem_nil

/-- What every step keeps, every reached state has. -/
theorem Reaches.keeps {P : State → Prop} (hstep : ∀ s t, P s → step s = .next t → P t) {s t : State} (h : Reaches s t)
    (hs : P s) : P t := by
  induction h with
  | refl => exact hs
  | tail t u _ last ih => exact hstep t u ih last

/-- Settles O43. -/
theorem resetAndLaunchAreLegal : Obligations.ResetAndLaunchAreLegal :=
  ⟨State.resetWith_inv (by decide), fun _ hc => ⟨State.resetWith_inv hc, fun _ _ h => State.launch_inv hc h⟩⟩

/-- Settles O49: the launch state is legal and every step keeps that. -/
theorem reachableStatesAreLegal : Obligations.ReachableStatesAreLegal := fun _ _ _ _ hc hlaunch hreach =>
  hreach.keeps stepKeepsInv (State.launch_inv hc hlaunch)

end Sys2Proof.Machine
end

section
/-! The encoded word as a number, the decoder by fields, and the bits a format does not use (spec/30_encoding.md R82 to R96). -/

namespace Sys2Proof

/-! ## The encoded word as a number -/

theorem toNat_regF (c : Reg) : (regF c).toNat = c.val := by
  have hc := c.isLt
  simp [regF, regField]
  omega

theorem toNat_offField (off : Int) : (offField off).toNat = (off % 2 ^ 15).toNat := by
  simp [offField, BitVec.toNat_ofInt]

/-- The fields fill bits 27:0 and no more (R82, R92). -/
theorem encodeFields_lt (op : BitVec 5) (a b : Reg) (f : BitVec 15) : (encodeFields op a b f).toNat < 2 ^ 28 := by
  have hop := op.isLt
  have ha := a.isLt
  have hb := b.isLt
  have hf := f.isLt
  rw [toNat_encodeFields]
  omega

theorem encode_lt (o : OpcMap) (i : Instr) : (encode o i).toNat < 2 ^ 28 := by
  cases i <;> exact encodeFields_lt _ _ _ _

/-- Settles O3: every word is `encodeFields` of its opcode and the fields of its format, the others 0. -/
theorem encodedWordFormula : Obligations.EncodedWordFormula := by
  intro o m a b c off
  refine ⟨encode_lt o _, ?_⟩
  cases m with
  | add | mul | div | imul | xidiv | and | xor | nand | cmpge =>
    simp only [Instr.ofFields, encode, toNat_encodeFields, toNat_regF, Mnemonic.format, OpcMap.code]
  | lw | sw | beq | jmae | jmnae | jne =>
    simp [Instr.ofFields, encode, toNat_encodeFields, toNat_offField, Mnemonic.format, OpcMap.code]
  | jarl | bsr | bsf | halt | push | pop =>
    simp [Instr.ofFields, encode, toNat_encodeFields, Mnemonic.format, OpcMap.code]

/-! ## Decoding by fields -/

/-- The words the decoder rejects, by their bits (R96). -/
theorem decode_rejects_iff {o : OpcMap} {w : Word} :
    (∃ e, decode o w = .error e) ↔ w.extractLsb' 28 4 ≠ 0 ∨ ∀ m, o.code m ≠ w.extractLsb' 23 5 := by
  rw [decode_eq_error, OpcMap.lookup_eq_none]
  rfl

/-- Settles O4. -/
theorem decodeByFieldsOrRejects : Obligations.DecodeByFieldsOrRejects := by
  refine fun o w ho => ⟨decode_rejects_iff.2, fun htop m hm => decode_eq_ok.2 ⟨htop, m, ?_, rfl⟩⟩
  rw [show fieldOp w = o.code m from hm.symm, OpcMap.lookup_code ho]

/-- Settles O1: nine words, each evaluated. -/
theorem writtenWordsDecode : Obligations.WrittenWordsDecode := by
  unfold Obligations.WrittenWordsDecode
  decide

/-! ## The offset field -/

/-- Settles O6: the decoded offset is the field in two's complement. -/
theorem offsetFieldSignExtends : Obligations.OffsetFieldSignExtends := by
  intro w
  have hrange := offsetInRange_fieldOff w
  simp only [offsetInRange, Bool.and_eq_true, decide_eq_true_eq] at hrange
  have hsign := BitVec.toInt_eq_toNat_cond (w.extractLsb' 0 15)
  rw [← fieldOff_eq] at hsign
  refine ⟨fun hlow => ?_, fun hhigh => ?_, hrange⟩
  · rw [hsign, if_pos (by omega)]
  · rw [hsign, if_neg (by omega)]
    rfl

/-! ## Bits a format does not use -/

/-- The bits a format uses: 31:28, the opcode, and its operand fields (R83). -/
def Format.usedBits : Format → Word
  | .RRR => 0xFFFF800F#32
  | .RRO => 0xFFFFFFFF#32
  | .O => 0xFF807FFF#32
  | .RR => 0xFFFF8000#32
  | .Z => 0xFF800000#32

/-- Two words that agree on the bits of a mask agree on every field the mask covers. -/
theorem extractLsb'_congr {w w' used : Word} (h : w &&& used = w' &&& used) (start len : Nat)
    (hcover : ∀ k < len, used.getLsbD (start + k) = true) : w.extractLsb' start len = w'.extractLsb' start len := by
  apply BitVec.eq_of_getLsbD_eq
  intro k hk
  have hbit := congrArg (·.getLsbD (start + k)) h
  simpa [hcover k hk, hk] using hbit

/-- The operands of a decoded instruction are read from the bits its format uses. -/
theorem ofFields_congr (m : Mnemonic) {w w' : Word} (h : w &&& m.format.usedBits = w' &&& m.format.usedBits) :
    Instr.ofFields m (fieldA w) (fieldB w) (fieldC w) (fieldOff w) =
      Instr.ofFields m (fieldA w') (fieldB w') (fieldC w') (fieldOff w') := by
  have field := extractLsb'_congr h
  cases m with
  | add | mul | div | imul | xidiv | and | xor | nand | cmpge =>
    simp only [Instr.ofFields, fieldA, fieldB, fieldC, field 19 4 (by decide), field 15 4 (by decide), field 0 4 (by decide)]
  | lw | sw | beq | jmae | jmnae =>
    simp only [Instr.ofFields, fieldA, fieldB, fieldOff, field 19 4 (by decide), field 15 4 (by decide),
      field 0 15 (by decide)]
  | jne => simp only [Instr.ofFields, fieldOff, field 0 15 (by decide)]
  | jarl | bsr | bsf => simp only [Instr.ofFields, fieldA, fieldB, field 19 4 (by decide), field 15 4 (by decide)]
  | halt | push | pop => simp only [Instr.ofFields]

/-- Every format uses bits 31:28 and the opcode. -/
theorem usedBits_covers_head (f : Format) :
    (∀ k < 4, f.usedBits.getLsbD (28 + k) = true) ∧ ∀ k < 5, f.usedBits.getLsbD (23 + k) = true := by
  cases f <;> decide

/-- Decoding does not look at the bits the decoded instruction's format leaves unused (R83, R87). -/
theorem decode_congr {o : OpcMap} {i : Instr} {w w' : Word} (hd : decode o w = .ok i)
    (h : w &&& i.mnemonic.format.usedBits = w' &&& i.mnemonic.format.usedBits) : decode o w' = .ok i := by
  obtain ⟨htop, m, hm, rfl⟩ := decode_eq_ok.1 hd
  rw [mnemonic_ofFields] at h
  obtain ⟨coverTop, coverOp⟩ := usedBits_covers_head m.format
  have top : fieldTop w = fieldTop w' := extractLsb'_congr h 28 4 coverTop
  have op : fieldOp w = fieldOp w' := extractLsb'_congr h 23 5 coverOp
  exact decode_eq_ok.2 ⟨top ▸ htop, m, op ▸ hm, ofFields_congr m h⟩

/-- An encoded word has no bit of a mask that none of its four fields has a bit of. -/
theorem encodeFields_and_eq_zero {op : BitVec 5} {a b : Reg} {f : BitVec 15} {mask : Word}
    (hop : op.setWidth 32 <<< 23 &&& mask = 0) (ha : (regField a).setWidth 32 <<< 19 &&& mask = 0)
    (hb : (regField b).setWidth 32 <<< 15 &&& mask = 0) (hf : f.setWidth 32 &&& mask = 0) :
    encodeFields op a b f &&& mask = 0 := by
  rw [BitVec.and_comm] at hop ha hb hf ⊢
  simp only [encodeFields, BitVec.and_or_distrib_left, hop, ha, hb, hf]
  rfl

theorem opcode_and_unused (op : BitVec 5) (f : Format) : op.setWidth 32 <<< 23 &&& ~~~f.usedBits = 0 := by
  revert op
  cases f <;> decide

theorem regs_and_unused (a b : Reg) {f : Format} (hf : f = .RRR ∨ f = .RRO ∨ f = .RR) :
    (regField a).setWidth 32 <<< 19 &&& ~~~f.usedBits = 0 ∧ (regField b).setWidth 32 <<< 15 &&& ~~~f.usedBits = 0 := by
  revert a b
  rcases hf with rfl | rfl | rfl <;> decide

theorem regF_and_unused (c : Reg) : (regF c).setWidth 32 &&& ~~~Format.RRR.usedBits = 0 := by
  revert c
  decide

/-- The formats with an offset use bits 14:0. -/
theorem offset_and_unused (f : BitVec 15) {fmt : Format} (h : fmt = .RRO ∨ fmt = .O) :
    f.setWidth 32 &&& ~~~fmt.usedBits = 0 := by
  have unused : ∀ k < 15, (~~~fmt.usedBits).getLsbD k = false := by rcases h with rfl | rfl <;> decide
  apply BitVec.eq_of_getLsbD_eq
  intro k hk
  rw [BitVec.getLsbD_and, BitVec.getLsbD_setWidth]
  by_cases h15 : k < 15
  · simp [unused k h15]
  · simp [f.getLsbD_of_ge k (by omega)]

/-- The fields of a format without operands are 0. -/
theorem noOperands_and (mask : Word) :
    (regField 0).setWidth 32 <<< 19 &&& mask = 0 ∧ (regField 0).setWidth 32 <<< 15 &&& mask = 0 ∧
      (0 : BitVec 15).setWidth 32 &&& mask = 0 :=
  ⟨BitVec.zero_and, BitVec.zero_and, BitVec.zero_and⟩

/-- The encoder leaves the bits an instruction's format does not use 0 (D21). -/
theorem encode_and_unused (o : OpcMap) (i : Instr) : encode o i &&& ~~~i.mnemonic.format.usedBits = 0 := by
  have head := fun op => opcode_and_unused op i.mnemonic.format
  obtain ⟨noA, noB, noF⟩ := noOperands_and (~~~i.mnemonic.format.usedBits)
  cases i with
  | add a b c | mul a b c | div a b c | imul a b c | xidiv a b c | and a b c | xor a b c | nand a b c | cmpge a b c =>
    obtain ⟨ha, hb⟩ := regs_and_unused a b (.inl rfl)
    exact encodeFields_and_eq_zero (head _) ha hb (regF_and_unused c)
  | lw a b off | sw a b off | beq a b off | jmae a b off | jmnae a b off =>
    obtain ⟨ha, hb⟩ := regs_and_unused a b (.inr (.inl rfl))
    exact encodeFields_and_eq_zero (head _) ha hb (offset_and_unused _ (.inl rfl))
  | jne off => exact encodeFields_and_eq_zero (head _) noA noB (offset_and_unused _ (.inr rfl))
  | jarl a b | bsr a b | bsf a b =>
    obtain ⟨ha, hb⟩ := regs_and_unused a b (.inr (.inr rfl))
    exact encodeFields_and_eq_zero (head _) ha hb noF
  | halt | push | pop => exact encodeFields_and_eq_zero (head _) noA noB noF

/-- Settles O5: decoding reads used bits only, and encoding sets no other. -/
theorem ignoredFieldsDoNotMatter : Obligations.IgnoredFieldsDoNotMatter := by
  intro o i used hused
  obtain rfl : used = i.mnemonic.format.usedBits := hused
  exact ⟨fun _ _ hd h => decode_congr hd h, encode_and_unused o i⟩

end Sys2Proof
end

section
/-! Reset and program load (spec/10_state.md section 11, spec/70_reset_and_hazards.md section 1). -/

namespace Sys2Proof.Machine

/-- Settles O7. -/
theorem resetState : Obligations.ResetState := by
  refine ⟨rfl, rfl, fun c => ⟨rfl, fun r => ?_, rfl, rfl, rfl, rfl, rfl, rfl, rfl, fun a h0 h1 => ?_⟩⟩
  · simp [State.reg, State.resetWith]
  · exact State.memRead_eq_some.2 ⟨⟨h0, h1⟩, rfl⟩

/-- A word of memory at launch: the program's own, or `MEM_FILL` beyond it (R38, R243). -/
theorem memRead_launch {c : Config} {program : List Word} {s : State} (h : State.launch c program = some s) {i : Nat}
    (hi : i < c.memWords) : s.memRead i = some (program[i]?.getD 0) := by
  obtain ⟨-, rfl⟩ := State.launch_eq_some.1 h
  refine State.memRead_eq_some.2 ⟨⟨by omega, by exact_mod_cast hi⟩, ?_⟩
  rw [State.setMem_mem, Int.toNat_natCast, Memory.read_load]
  by_cases hin : i < program.length
  · rw [dif_pos ⟨Nat.zero_le i, by omega⟩]
    simp [hin]
  · rw [dif_neg (by omega), List.getElem?_eq_none (by omega)]
    rfl

/-- A launched program stands in memory, word `i` at address `i` (R243). -/
theorem memRead_launch_program {c : Config} {program : List Word} {s : State} (h : State.launch c program = some s)
    {i : Nat} (hi : i < program.length) : s.memRead i = some program[i] := by
  have hfits := (State.launch_eq_some.1 h).1
  rw [memRead_launch h (lt_of_lt_of_le hi hfits), List.getElem?_eq_getElem hi]
  rfl

theorem launch_of_le {c : Config} {program : List Word} (h : program.length ≤ c.memWords) :
    State.launch c program = some ((State.resetWith c).setMem (Memory.load 0 program [])) :=
  State.launch_eq_some.2 ⟨h, rfl⟩

/-- Settles O8. -/
theorem launchLoadsProgram : Obligations.LaunchLoadsProgram := by
  refine fun c program => ⟨fun hlong => if_neg (by omega), fun hfits => ?_⟩
  have hlaunch := launch_of_le hfits
  refine ⟨_, hlaunch, fun i hi => memRead_launch_program hlaunch hi, fun i hlow hhigh => ?_, rfl⟩
  rw [memRead_launch hlaunch hhigh, List.getElem?_eq_none hlow]
  rfl

end Sys2Proof.Machine
end

section
/-! One equation per outcome of each instruction: every later proof about an instruction rests on these and not on `exec`
(spec/40_arith_logic_compare.md, 41_load_store.md, 42_control.md, 43_bitscan_stack.md). -/

namespace Sys2Proof.Machine

variable (s : State) (a b c : Reg) (off : Int)

theorem exec_add : exec (.add a b c) s = .next (s.writeResult sum32 a b c) := rfl

theorem exec_mul : exec (.mul a b c) s = .next (s.writeResult mulLow a b c) := rfl

theorem exec_imul : exec (.imul a b c) s = .next (s.writeResult imulLow a b c) := rfl

theorem exec_cmpge :
    exec (.cmpge a b c) s = .next (s.writeResult (fun x y => if greaterEq s.cfg x y then 1 else 0) a b c) := rfl

theorem exec_beq : exec (.beq a b off) s = .next (s.branchIf (decide (s.reg a = s.reg b)) off) := rfl

theorem exec_jmae : exec (.jmae a b off) s = .next (s.branchIf (greaterEq s.cfg (s.reg a) (s.reg b)) off) := rfl

theorem exec_jmnae : exec (.jmnae a b off) s = .next (s.branchIf (!greaterEq s.cfg (s.reg a) (s.reg b)) off) := rfl

theorem exec_jne : exec (.jne off) s = .next (s.branchIf s.flag off) := rfl

theorem exec_halt : exec .halt s = .next (s.advance.setStatus .halted) := rfl

variable {s a b off}

theorem exec_div_of_zero (h : s.reg b = 0) : exec (.div a b c) s = .next (s.raise .divideError s.pc) :=
  if_pos (toNat_eq_zero.2 h)

theorem exec_div_of_ne (h : s.reg b ≠ 0) : exec (.div a b c) s = .next (s.writeResult divU a b c) :=
  if_neg fun e => h (toNat_eq_zero.1 e)

theorem exec_xidiv_of_faults (h : divSFaults s.cfg (s.reg a) (s.reg b) = true) :
    exec (.xidiv a b c) s = .next (s.raise .divideError s.pc) :=
  if_pos h

theorem exec_xidiv_of_not (h : ¬divSFaults s.cfg (s.reg a) (s.reg b) = true) :
    exec (.xidiv a b c) s = .next ((s.setReg c (divS (s.reg a) (s.reg b))).exchange a b).advance :=
  if_neg h

theorem exec_jarl_of_equal (h : jarlEqual s a b = true) : exec (.jarl a b) s = .next (s.setReg a s.nextPc).advance :=
  if_pos h

theorem exec_jarl_of_not (h : ¬jarlEqual s a b = true) :
    exec (.jarl a b) s = .next ((s.setReg b s.nextPc).jump (s.reg a)) :=
  if_neg h

theorem exec_lw_of_read {v : Word} (h : s.memRead (s.ea a off) = some v) :
    exec (.lw a b off) s = .next (s.setReg b v).advance := by
  simp only [exec, execLw, h]

theorem exec_lw_of_out (h : ¬(0 ≤ s.ea a off ∧ s.ea a off < s.cfg.memWords)) :
    exec (.lw a b off) s = .next (s.raise .memOutOfBounds (trunc32 (s.ea a off))) := by
  simp only [exec, execLw, State.memRead_eq_none.2 h]

theorem exec_sw_of_write {t : State} (h : s.memWrite (s.ea a off) (s.reg b) = some t) :
    exec (.sw a b off) s = .next t.advance := by
  simp only [exec, execSw, h]

theorem exec_sw_of_out (h : ¬(0 ≤ s.ea a off ∧ s.ea a off < s.cfg.memWords)) :
    exec (.sw a b off) s = .next (s.raise .memOutOfBounds (trunc32 (s.ea a off))) := by
  simp only [exec, execSw, State.memWrite_eq_none.2 h]

theorem exec_push_of_lt (h : s.sp < 32) : exec .push s = .next (s.setStack (s.reg 1 :: s.stack)).advance := by
  have hpush : s.stkPush (s.reg Config.stackReg) = some (s.setStack (s.reg 1 :: s.stack)) :=
    State.stkPush_eq_some.2 ⟨h, rfl⟩
  simp only [exec, execPush, hpush]

theorem exec_push_of_full (h : 32 ≤ s.sp) : exec .push s = .next (s.raise .stackOverflow s.pc) := by
  simp only [exec, execPush, State.stkPush_eq_none.2 h]

theorem exec_pop_of_cons {v : Word} {rest : List Word} (h : s.stack = v :: rest) :
    exec .pop s = .next ((s.setStack rest).setReg 1 v).advance := by
  have hpop : s.stkPop = some (v, s.setStack rest) := State.stkPop_eq_some.2 ⟨rest, h, rfl⟩
  simp only [exec, execPop, hpop, Config.stackReg]

theorem exec_pop_of_empty (h : s.sp = 0) : exec .pop s = .next (s.raise .stackUnderflow s.pc) := by
  simp only [exec, execPop, State.stkPop_eq_none.2 h]

end Sys2Proof.Machine
end

section
/-! The arithmetic and compare instructions: results, faults and frames (spec/40_arith_logic_compare.md). -/

namespace Sys2Proof.Machine

/-- An instruction that writes the result of an operation completes with a register of which all holds that holds of the
operation's result, and changes nothing else but `pc` (R120). -/
theorem completes_of_writeResult {i : Instr} {s : State} {f : Word → Word → Word} {a b c : Reg} (P : Word → Prop)
    (hexec : exec i s = .next (s.writeResult f a b c)) (hP : P (f (s.reg a) (s.reg b))) :
    ∃ t, exec i s = .next t ∧ P (t.reg c) ∧ RegsSame s t [c] ∧ PcAdvanced s t ∧ ControlSame s t ∧ MemSame s t := by
  obtain ⟨hres, hframe⟩ := writeResult_spec s f a b c
  exact ⟨_, hexec, hres ▸ hP, hframe⟩

/-- Settles O9: the wrapped sum is the sum of bit vectors. -/
theorem addWrapsIntoDestination : Obligations.AddWrapsIntoDestination := by
  intro s a b c
  obtain ⟨hres, hframe⟩ := writeResult_spec s sum32 a b c
  exact ⟨_, exec_add s a b c, hres, hres.trans (sum32_eq _ _), hframe⟩

/-- Settles O11. -/
theorem multiplyLowWord : Obligations.MultiplyLowWord := fun s a b c =>
  ⟨completes_of_writeResult (·.toNat = (s.reg a).toNat * (s.reg b).toNat % 2 ^ 32) (exec_mul s a b c) (toNat_mulLow _ _),
    completes_of_writeResult (· = trunc32 ((s.reg a).toInt * (s.reg b).toInt)) (exec_imul s a b c) rfl⟩

/-- Settles O12: the low words of the two products are one pattern. -/
theorem mulAndImulAgree : Obligations.MulAndImulAgree := by
  intro s a b c
  have hop : imulLow = mulLow := funext₂ imulLow_eq_mulLow
  exact ⟨_, exec_mul s a b c, by rw [exec_imul, hop]⟩

/-- Settles O13. -/
theorem divUnsignedQuotient : Obligations.DivUnsignedQuotient := fun s a b c =>
  ⟨fun hzero => ⟨_, exec_div_of_zero c hzero, faultedFrom_raise s _ _⟩,
    fun hne => completes_of_writeResult (·.toNat = (s.reg a).toNat / (s.reg b).toNat) (exec_div_of_ne c hne)
      (toNat_divU _ _)⟩

/-- Settles O14. -/
theorem xidivFaults : Obligations.XidivFaults := fun s _ _ c hfault =>
  ⟨_, exec_xidiv_of_faults c (divSFaults_iff.2 hfault), faultedFrom_raise s _ _⟩

/-- A word divided by itself is 1. -/
theorem divS_self {x : Word} (h : x ≠ 0) : divS x x = 1 := by
  rw [divS, quotTowardZero_eq_tdiv, Int.tdiv_self fun e => h (toInt_eq_zero.1 e)]
  decide

/-- The exchange changes the two registers it names only. -/
theorem regsSame_setReg_exchange (s : State) (a b c : Reg) (q : Word) :
    RegsSame s ((s.setReg c q).exchange a b).advance [a, b, c] := by
  intro r hr
  simp only [List.mem_cons, List.not_mem_nil, or_false, not_or] at hr
  obtain ⟨ha, hb, hc⟩ := hr
  rw [State.reg_advance, State.reg_exchange, if_neg ha, if_neg hb, s.reg_setReg_of_ne q hc]

/-- Settles O15: the quotient is written first, so each of `x[A]` and `x[B]` ends with what the other holds after that write. -/
theorem xidivQuotientThenExchange : Obligations.XidivQuotientThenExchange := by
  intro s a b c hne hovf
  have hok : ¬divSFaults s.cfg (s.reg a) (s.reg b) = true := fun hfault => (divSFaults_iff.1 hfault).elim hne hovf
  refine ⟨_, divS (s.reg a) (s.reg b), exec_xidiv_of_not c hok, ?quotient, ?regA, ?regB, fun hca hcb => ?regC, fun hab => ?self,
    regsSame_setReg_exchange s a b c _, rfl, ⟨rfl, rfl, rfl, rfl, rfl, rfl, rfl⟩, fun _ => rfl⟩
  case quotient => rw [divS, quotTowardZero_eq_tdiv]
  case regA => rw [State.reg_advance, State.reg_exchange, if_pos rfl, State.reg_setReg]
  case regB =>
    rw [State.reg_advance, State.reg_exchange]
    split
    · next hba => rw [State.reg_setReg, hba]
    · rw [if_pos rfl, State.reg_setReg]
  case regC => rw [State.reg_advance, State.reg_exchange, if_neg hca, if_neg hcb, State.reg_setReg_self]
  case self =>
    subst hab
    exact divS_self hne

/-- Settles O16: the comparison is signed or unsigned as the parameter says. -/
theorem cmpgeWritesOneOrZero : Obligations.CmpgeWritesOneOrZero := by
  intro s a b c
  obtain ⟨hres, hframe⟩ := writeResult_spec s (fun x y => if greaterEq s.cfg x y then 1 else 0) a b c
  refine ⟨_, exec_cmpge s a b c, fun hsigned => ?_, fun hunsigned => ?_, hframe⟩
  · rw [hres]
    simp only [greaterEq_iff, hsigned, if_true]
  · rw [hres]
    simp only [greaterEq_iff, hunsigned, Bool.false_eq_true, if_false]

end Sys2Proof.Machine
end

section
/-! Loads and stores (spec/41_load_store.md, spec/20_memory.md sections 3 and 5). -/

namespace Sys2Proof.Machine

/-- Writing a register and advancing changes that register and `pc` only. -/
theorem setReg_advance_frame (s : State) (r : Reg) (v : Word) :
    RegsSame s (s.setReg r v).advance [r] ∧ PcAdvanced s (s.setReg r v).advance ∧
      ControlSame s (s.setReg r v).advance ∧ MemSame s (s.setReg r v).advance := by
  refine ⟨fun q hq => ?_, rfl, ⟨rfl, rfl, rfl, rfl, rfl, rfl, rfl⟩, fun _ => rfl⟩
  rw [State.reg_advance, s.reg_setReg_of_ne v (by simpa using hq)]

/-- An address that exists can be read. -/
theorem memRead_of_mem {s : State} {a : Int} (h : 0 ≤ a ∧ a < s.cfg.memWords) : ∃ v, s.memRead a = some v :=
  ⟨_, State.memRead_eq_some.2 ⟨h, rfl⟩⟩

/-- An address that exists can be written. -/
theorem memWrite_of_mem {s : State} {a : Int} (v : Word) (h : 0 ≤ a ∧ a < s.cfg.memWords) :
    s.memWrite a v = some (s.setMem (s.mem.write a.toNat v)) :=
  State.memWrite_eq_some.2 ⟨h, rfl⟩

/-- Settles O17. -/
theorem loadWord : Obligations.LoadWord := by
  refine fun s a b off => ⟨fun hin => ?_, fun hout => ⟨_, exec_lw_of_out hout, faultedFrom_raise s _ _⟩⟩
  obtain ⟨v, hread⟩ := memRead_of_mem hin
  refine ⟨_, exec_lw_of_read hread, ?_, setReg_advance_frame s b v⟩
  rw [State.reg_advance, State.reg_setReg_self, hread]

/-- Settles O18. -/
theorem storeWord : Obligations.StoreWord := by
  refine fun s a b off => ⟨fun hin => ?_, fun hout => ⟨_, exec_sw_of_out hout, faultedFrom_raise s _ _⟩, rfl⟩
  have hwrite := memWrite_of_mem (s.reg b) hin
  refine ⟨_, exec_sw_of_write hwrite, ?_, fun a' ha' => ?_, fun _ _ => rfl, rfl, rfl, rfl, rfl, rfl, rfl, rfl, rfl⟩
  · rw [State.memRead_advance, State.memRead_memWrite hwrite, if_pos rfl]
  · rw [State.memRead_advance, State.memRead_memWrite hwrite, if_neg ha']

/-- Settles O19: the load's address is the same before and after the store, and a read after a store is known. -/
theorem storeThenLoad : Obligations.StoreThenLoad := by
  intro s a b a' b' off off' h0 h1 h0' h1'
  have hwrite := memWrite_of_mem (s.reg b) ⟨h0, h1⟩
  have hstore := exec_sw_of_write hwrite
  obtain ⟨v, hread⟩ := memRead_of_mem (s := (s.setMem (s.mem.write (s.ea a off).toNat (s.reg b))).advance)
    (a := s.ea a' off') ⟨h0', h1'⟩
  refine ⟨_, _, hstore, exec_lw_of_read hread, ?_⟩
  rw [State.reg_advance, State.reg_setReg_self, ← hread, State.memRead_advance, State.memRead_memWrite hwrite]

end Sys2Proof.Machine
end

section
/-! Control transfer and `halt` (spec/42_control.md). -/

namespace Sys2Proof.Machine

/-! ## Conditional branches -/

/-- A branch goes to its target where its condition holds and to the next address where it does not, and changes nothing but
`pc` (R160 to R163, R166). -/
theorem completes_of_branchIf {i : Instr} {s : State} {taken : Bool} {off : Int} {P Q : Prop}
    (hexec : exec i s = .next (s.branchIf taken off)) (hP : P → taken = true) (hQ : Q → taken = false) :
    ∃ t, exec i s = .next t ∧ (P → t.pc = trunc32 (s.pc.toInt + off + 1)) ∧ (Q → t.pc = trunc32 (s.pc.toInt + 1)) ∧
      RegsSame s t [] ∧ ControlSame s t ∧ MemSame s t := by
  refine ⟨_, hexec, fun h => ?_, fun h => ?_, branchIf_frame s taken off⟩
  · rw [branchIf_pc, hP h]
    rfl
  · rw [branchIf_pc, hQ h]
    rfl

/-- An instruction fetch outside memory is a fault with `pc` (R203). -/
theorem step_of_pc_out {s : State} (run : s.status = .running) (hout : ¬(0 ≤ s.pc.toInt ∧ s.pc.toInt < s.cfg.memWords)) :
    step s = .next (s.raise .memOutOfBounds s.pc) := by
  refine step_of_fetch_error run ?_
  simp only [State.fetch, State.memRead_eq_none.2 hout, trunc32_toInt]

/-- Settles O20: the branch itself never faults; the next step does where its target is outside memory. -/
theorem beqBranches : Obligations.BeqBranches := by
  intro s a b off
  obtain ⟨t, hexec, htaken, hnot, hregs, hcontrol, hmem⟩ := completes_of_branchIf (exec_beq s a b off)
    (P := s.reg a = s.reg b) (Q := s.reg a ≠ s.reg b) decide_eq_true decide_eq_false
  refine ⟨t, hexec, htaken, hnot, fun hab => htaken (hab ▸ rfl), hregs, hcontrol, hmem, fun run hout => ?_⟩
  obtain ⟨-, -, hcfg, hstatus, -⟩ := hcontrol
  exact ⟨_, step_of_pc_out (hstatus.trans run) (hcfg ▸ hout), faultedFrom_raise t _ _⟩

/-- Settles O21. -/
theorem orderBranches : Obligations.OrderBranches := by
  intro s a b off ge hge
  have hcond : greaterEq s.cfg (s.reg a) (s.reg b) = true ↔ ge := greaterEq_iff.trans hge.symm
  have htrue : ge → greaterEq s.cfg (s.reg a) (s.reg b) = true := hcond.2
  have hfalse : ¬ge → greaterEq s.cfg (s.reg a) (s.reg b) = false := fun h => Bool.eq_false_iff.2 fun e => h (hcond.1 e)
  exact ⟨completes_of_branchIf (exec_jmae s a b off) htrue hfalse,
    completes_of_branchIf (exec_jmnae s a b off) (fun h => by rw [hfalse h]; rfl) fun h => by rw [htrue h]; rfl⟩

/-- A value is greater than or equal to itself, under both readings. -/
theorem greaterEq_self (c : Config) (x : Word) : greaterEq c x x = true := by
  rw [greaterEq_iff]
  split <;> exact le_refl _

/-- Settles O22: the two conditions are negations of each other. -/
theorem orderBranchesComplement : Obligations.OrderBranchesComplement := by
  intro s a b off
  refine ⟨_, _, exec_jmae s a b off, exec_jmnae s a b off, ?_, fun hab => ?_⟩
  · cases h : greaterEq s.cfg (s.reg a) (s.reg b) with
    | true => exact .inl ⟨rfl, rfl⟩
    | false => exact .inr ⟨rfl, rfl⟩
  · rw [hab, greaterEq_self]
    rfl

/-- Settles O23. -/
theorem jneTestsFlagOnly : Obligations.JneTestsFlagOnly := by
  intro s off
  obtain ⟨t, hexec, hset, hclear, hregs, hcontrol, hmem⟩ := completes_of_branchIf (exec_jne s off)
    (P := s.flag = true) (Q := s.flag = false) id id
  exact ⟨t, hexec, hset, hclear, hcontrol.1, hregs, hcontrol, hmem⟩

/-! ## `jarl` and `halt` -/

/-- Settles O24. -/
theorem jarlLinksAndJumps : Obligations.JarlLinksAndJumps := by
  intro s a b eq heq
  have hcond : jarlEqual s a b = true ↔ eq := jarlEqual_iff.trans heq.symm
  by_cases h : eq
  · obtain ⟨hregs, hpc, hcontrol, hmem⟩ := setReg_advance_frame s a s.nextPc
    refine ⟨_, exec_jarl_of_equal (hcond.2 h), fun _ => ⟨?_, hpc, hregs⟩, absurd h, hcontrol, hmem⟩
    rw [State.reg_advance, State.reg_setReg_self]
    rfl
  · refine ⟨_, exec_jarl_of_not fun e => h (hcond.1 e), fun h' => absurd h' h, fun _ => ⟨?_, rfl, fun r hr => ?_⟩,
      ⟨rfl, rfl, rfl, rfl, rfl, rfl, rfl⟩, fun _ => rfl⟩
    · rw [State.reg_jump, State.reg_setReg_self]
      rfl
    · rw [State.reg_jump, s.reg_setReg_of_ne _ (by simpa using hr)]

/-- The two readings of the comparison agree unless different registers hold equal values. -/
theorem jarlEqual_of_agree {s : State} {a b : Reg} (h : ¬(a ≠ b ∧ s.reg a = s.reg b)) :
    jarlEqual s a b = true ↔ a = b := by
  have hval : s.reg a = s.reg b ↔ a = b := ⟨fun e => by_contra fun hab => h ⟨hab, e⟩, fun e => e ▸ rfl⟩
  rw [jarlEqual_iff, hval, ite_self]

/-- Settles O25: the comparison alone looks at the parameter, and both readings of it come down to `a = b`. -/
theorem jarlReadingsAgree : Obligations.JarlReadingsAgree := by
  intro s t a b c _ hagree hexec
  have here := jarlEqual_of_agree hagree
  have there : jarlEqual { s with cfg := c } a b = true ↔ a = b := jarlEqual_of_agree hagree
  by_cases hab : a = b
  · rw [exec_jarl_of_equal (here.2 hab)] at hexec
    cases hexec
    exact exec_jarl_of_equal (there.2 hab)
  · rw [exec_jarl_of_not fun e => hab (here.1 e)] at hexec
    cases hexec
    exact exec_jarl_of_not fun e => hab (there.1 e)

/-- Settles O26. -/
theorem haltStops : Obligations.HaltStops := by
  refine fun s => ⟨_, exec_halt s, rfl, rfl, fun _ _ => rfl, fun _ => rfl, rfl, rfl, rfl, rfl, rfl, rfl, fun u hstep => ?_,
    fun run hfetch => ?_⟩
  · cases running_of_step hstep
  · rw [step_of_fetch_ok run hfetch, exec_halt, retire_next]
    rfl

end Sys2Proof.Machine
end

section
/-! The hardware stack (spec/43_bitscan_stack.md). -/

namespace Sys2Proof.Machine

/-- The entries below the top keep their places under it: `STK[k]` counts from the bottom (R29). -/
theorem State.stk_of_stack_eq_cons {s t : State} {v : Word} (h : s.stack = v :: t.stack) {k : Nat} (hk : k < t.sp) :
    s.stk k = t.stk k := by
  unfold State.stk
  have hlen : k < t.stack.reverse.length := by rwa [List.length_reverse]
  rw [h, List.reverse_cons, List.getElem?_append_left hlen]

theorem State.stk_top {s t : State} {v : Word} (h : s.stack = v :: t.stack) : s.stk t.sp = some v := by
  unfold State.stk State.sp
  rw [h, List.reverse_cons, List.getElem?_append_right (by simp)]
  simp

/-- Settles O29. -/
theorem pushStoresRegisterOne : Obligations.PushStoresRegisterOne := by
  refine fun s => ⟨fun hfree => ?_, fun hfull => ⟨_, exec_push_of_full hfull, faultedFrom_raise s _ _⟩⟩
  refine ⟨_, exec_push_of_lt hfree, rfl, State.stk_top rfl, fun k hk => State.stk_of_stack_eq_cons rfl hk,
    fun _ _ => rfl, rfl, rfl, ⟨rfl, rfl, rfl, rfl, rfl⟩, fun _ => rfl⟩

/-- Settles O30. -/
theorem popLoadsRegisterOne : Obligations.PopLoadsRegisterOne := by
  refine fun s => ⟨fun hused => ?_, fun hempty => ⟨_, exec_pop_of_empty hempty, faultedFrom_raise s _ _⟩⟩
  obtain ⟨v, rest, hstack⟩ := List.exists_cons_of_length_pos hused
  refine ⟨_, exec_pop_of_cons hstack, ?_, ?_, fun k hk => (State.stk_of_stack_eq_cons hstack hk).symm, fun r hr => ?_,
    rfl, rfl, ⟨rfl, rfl, rfl, rfl, rfl⟩, fun _ => rfl⟩
  · exact (congrArg List.length hstack).symm
  · rw [State.reg_advance, State.reg_setReg_self]
    exact (State.stk_top hstack).symm
  · rw [State.reg_advance, State.reg_setReg_of_ne _ _ (by simpa using hr), State.reg_setStack]

/-- Settles O31: the pop takes the entry the push has put on top, which is the value `x[1]` still holds. -/
theorem popAfterPushRestores : Obligations.PopAfterPushRestores := by
  intro s hfree
  refine ⟨_, _, exec_push_of_lt hfree, exec_pop_of_cons rfl, rfl, fun r _ => ?_, fun _ => rfl, rfl, rfl⟩
  rw [State.reg_advance, State.reg_setReg]
  split
  · next h => rw [h]
  · rfl

end Sys2Proof.Machine
end

section
/-! What executing an instruction does, said once with its operands: `Effect`. Which registers an instruction writes, how it moves
`pc` and when it faults are read off it (spec/10_state.md sections 2 and 3, spec/60_exceptions.md section 1). -/

namespace Sys2Proof.Machine

/-- The effects an instruction can have on the state `s`, by the operation that makes the next state: they tell which registers it
writes, where `pc` goes, and why it faults. What memory and the stack hold afterwards is `Completed`'s to say. -/
inductive Effect (s : State) : Instr → State → Prop
  /-- a fault, on a condition of the table of R201 -/
  | fault (i : Instr) (cause : FaultCause) (info : Word) (why : s.fetch = .ok i → Raises s cause info) :
      Effect s i (s.raise cause info)
  /-- a three-register operation -/
  | result (i : Instr) (f : Word → Word → Word) (a b c : Reg) (writes : writesOf i = [c]) :
      Effect s i (s.writeResult f a b c)
  /-- the quotient of `xidiv`, then the exchange -/
  | quotient (a b c : Reg) (q : Word) : Effect s (.xidiv a b c) ((s.setReg c q).exchange a b).advance
  /-- a load inside memory -/
  | load (a b : Reg) (off : Int) (v : Word) : Effect s (.lw a b off) (s.setReg b v).advance
  /-- a store inside memory -/
  | store (a b : Reg) (off : Int) (m : Memory) : Effect s (.sw a b off) (s.setMem m).advance
  /-- a conditional branch -/
  | branch (i : Instr) (taken : Bool) (off : Int)
      (relative : ∃ a b, i = .beq a b off ∨ i = .jmae a b off ∨ i = .jmnae a b off ∨ i = .jne off) :
      Effect s i (s.branchIf taken off)
  /-- `jarl` without a jump -/
  | link (a b : Reg) : Effect s (.jarl a b) (s.setReg a s.nextPc).advance
  /-- `jarl` with a jump -/
  | jump (a b : Reg) : Effect s (.jarl a b) ((s.setReg b s.nextPc).jump (s.reg a))
  /-- the end of the run -/
  | halt : Effect s .halt (s.advance.setStatus .halted)
  /-- a bit scan -/
  | scan (i : Instr) (f : Word → Option Nat) (a b : Reg) (writes : writesOf i = [b]) : Effect s i (s.writeScan f a b)
  /-- a push with a free entry -/
  | push (l : List Word) : Effect s .push (s.setStack l).advance
  /-- a pop of an occupied entry -/
  | pop (v : Word) (l : List Word) : Effect s .pop ((s.setStack l).setReg 1 v).advance

/-- Every instruction has a next state, and it is one of these effects. -/
theorem exec_effect (i : Instr) (s : State) : ∃ t, exec i s = .next t ∧ Effect s i t := by
  cases i with
  | add a b c | mul a b c | imul a b c | and a b c | xor a b c | nand a b c | cmpge a b c =>
    exact ⟨_, rfl, .result _ _ a b c rfl⟩
  | div a b c =>
    by_cases hb : s.reg b = 0
    · exact ⟨_, exec_div_of_zero c hb, .fault _ _ _ fun i => .div a b c i hb⟩
    · exact ⟨_, exec_div_of_ne c hb, .result _ _ a b c rfl⟩
  | xidiv a b c =>
    by_cases hf : divSFaults s.cfg (s.reg a) (s.reg b) = true
    · refine ⟨_, exec_xidiv_of_faults c hf, .fault _ _ _ fun i => ?_⟩
      rcases divSFaults_iff.1 hf with hzero | ⟨hx, hy, hpar⟩
      · exact .xidivZero a b c i hzero
      · exact .xidivOverflow a b c i hx hy hpar
    · exact ⟨_, exec_xidiv_of_not c hf, .quotient a b c _⟩
  | lw a b off =>
    by_cases hin : 0 ≤ s.ea a off ∧ s.ea a off < s.cfg.memWords
    · obtain ⟨v, hv⟩ := memRead_of_mem hin
      exact ⟨_, exec_lw_of_read hv, .load a b off v⟩
    · exact ⟨_, exec_lw_of_out hin, .fault _ _ _ fun i => .load a b off i hin⟩
  | sw a b off =>
    by_cases hin : 0 ≤ s.ea a off ∧ s.ea a off < s.cfg.memWords
    · exact ⟨_, exec_sw_of_write (memWrite_of_mem _ hin), .store a b off _⟩
    · exact ⟨_, exec_sw_of_out hin, .fault _ _ _ fun i => .store a b off i hin⟩
  | beq a b off => exact ⟨_, exec_beq s a b off, .branch _ _ off ⟨a, b, by simp⟩⟩
  | jmae a b off => exact ⟨_, exec_jmae s a b off, .branch _ _ off ⟨a, b, by simp⟩⟩
  | jmnae a b off => exact ⟨_, exec_jmnae s a b off, .branch _ _ off ⟨a, b, by simp⟩⟩
  | jne off => exact ⟨_, exec_jne s off, .branch _ _ off ⟨0, 0, by simp⟩⟩
  | jarl a b =>
    by_cases he : jarlEqual s a b = true
    · exact ⟨_, exec_jarl_of_equal he, .link a b⟩
    · exact ⟨_, exec_jarl_of_not he, .jump a b⟩
  | halt => exact ⟨_, exec_halt s, .halt⟩
  | bsr a b => exact ⟨_, exec_bsr a b s, .scan _ _ a b rfl⟩
  | bsf a b => exact ⟨_, exec_bsf a b s, .scan _ _ a b rfl⟩
  | push =>
    by_cases hfree : s.sp < 32
    · exact ⟨_, exec_push_of_lt hfree, .push _⟩
    · exact ⟨_, exec_push_of_full (not_lt.1 hfree), .fault _ _ _ fun i => .push i (not_lt.1 hfree)⟩
  | pop =>
    cases hstack : s.stack with
    | nil =>
      have hempty : s.sp = 0 := congrArg List.length hstack
      exact ⟨_, exec_pop_of_empty hempty, .fault _ _ _ fun i => .pop i hempty⟩
    | cons v rest => exact ⟨_, exec_pop_of_cons hstack, .pop v rest⟩

theorem exec_total (i : Instr) (s : State) : ∃ t, exec i s = .next t :=
  (exec_effect i s).imp fun _ h => h.1

theorem Effect.of_exec {i : Instr} {s t : State} (h : exec i s = .next t) : Effect s i t := by
  obtain ⟨u, hu, heffect⟩ := exec_effect i s
  exact Host.Outcome.next.inj (hu.symm.trans h) ▸ heffect

/-! ## Which registers an instruction writes -/

/-- Writing a listed register. The other updates keep all registers, so `RegsSame` passes through them by definition. -/
theorem RegsSame.setReg {s t : State} {rs : List Reg} (h : RegsSame s t rs) {r : Reg} (hr : r ∈ rs) (v : Word) :
    RegsSame s (t.setReg r v) rs := by
  intro q hq
  have hne : q ≠ r := fun e => hq (e ▸ hr)
  rw [t.reg_setReg_of_ne v hne, h q hq]

/-- An instruction writes no register but those its row of the table names (R23). -/
theorem Effect.regsSame {i : Instr} {s t : State} (h : Effect s i t) : RegsSame s t (writesOf i) := by
  have same := fun rs => RegsSame.refl s rs
  cases h with
  | fault => exact same _
  | result _ f a b c writes => exact writes ▸ (writeResult_spec s f a b c).2.1
  | quotient a b c q =>
    have hquotient := (same [c, a, b]).setReg (r := c) (by simp) q
    exact (hquotient.setReg (r := a) (by simp) _).setReg (r := b) (by simp) _
  | load a b off v => exact (same [b]).setReg (r := b) (by simp) v
  | store => exact same _
  | branch _ taken off relative =>
    obtain ⟨a, b, rfl | rfl | rfl | rfl⟩ := relative <;> exact (branchIf_frame s taken off).1
  | link a b => exact (same [a, b]).setReg (r := a) (by simp) _
  | jump a b => exact (same [a, b]).setReg (r := b) (by simp) _
  | halt => exact same _
  | scan _ f a b writes => exact writes ▸ (writeScan_frame s f a b).1
  | push => exact same _
  | pop v l => exact (same [1]).setReg (r := 1) (by simp) v

/-! ## How `pc` moves -/

/-- An instruction faults and leaves `pc`, or advances it, or is a control transfer that has moved it to its target (R26). -/
theorem Effect.pc_cases {i : Instr} {s t : State} (h : Effect s i t) :
    (t.status = .faulted ∧ t.pc = s.pc) ∨ (t.status = s.status ∨ t.status = .halted) ∧ (PcAdvanced s t ∨
      (∃ a b off, (i = .beq a b off ∨ i = .jmae a b off ∨ i = .jmnae a b off ∨ i = .jne off) ∧
        t.pc = trunc32 (s.pc.toInt + off + 1)) ∨
      (∃ a b, i = .jarl a b ∧ t.pc = s.reg a)) := by
  cases h with
  | fault => exact .inl ⟨rfl, rfl⟩
  | branch _ taken off relative =>
    obtain ⟨-, hcontrol, -⟩ := branchIf_frame s taken off
    obtain ⟨-, -, -, hstatus, -⟩ := hcontrol
    obtain ⟨a, b, hi⟩ := relative
    cases taken with
    | true => exact .inr ⟨.inl hstatus, .inr (.inl ⟨a, b, off, hi, rfl⟩)⟩
    | false => exact .inr ⟨.inl hstatus, .inl rfl⟩
  | jump a b => exact .inr ⟨.inl rfl, .inr (.inr ⟨a, b, rfl, rfl⟩)⟩
  | halt => exact .inr ⟨.inr rfl, .inl rfl⟩
  | result | quotient | load | store | link | scan | push | pop => exact .inr ⟨.inl rfl, .inl rfl⟩

/-- Settles O33. -/
theorem onlyBranchesMovePcElsewhere : Obligations.OnlyBranchesMovePcElsewhere := by
  intro i s t hexec hs
  rcases (Effect.of_exec hexec).pc_cases with ⟨hfault, hpc⟩ | ⟨hstatus, hmoves⟩
  · exact ⟨fun _ => hpc, fun hnot => absurd hfault hnot⟩
  · refine ⟨fun hfault => ?_, fun _ => hmoves⟩
    rcases hstatus with e | e
    · exact absurd (e.symm.trans hfault) hs
    · cases e.symm.trans hfault

/-! ## Which registers an instruction depends on -/

/-- The state `u` differs from `t` at most in register `r`, which then still holds the value `v` it was given in `u` and the one
it has in `s` in `t`. -/
def DiffersAt (s : State) (r : Reg) (v : Word) (t u : State) : Prop := u = t ∨ (u = t.setReg r v ∧ t.reg r = s.reg r)

theorem State.setReg_setReg_self (s : State) (r : Reg) (v w : Word) : (s.setReg r v).setReg r w = s.setReg r w := by
  simp [State.setReg]

theorem State.setReg_comm (s : State) {r q : Reg} (h : q ≠ r) (v w : Word) :
    (s.setReg r v).setReg q w = (s.setReg q w).setReg r v := by
  have hne : (r : Nat) ≠ q := fun e => h (Fin.ext e.symm)
  simp [State.setReg, Vector.set_comm _ _ hne]

section

variable {s t u : State} {r : Reg} {v : Word}

theorem DiffersAt.start (s : State) (r : Reg) (v : Word) : DiffersAt s r v s (s.setReg r v) := .inr ⟨rfl, rfl⟩

/-- Writing one value to any register of both states: if it is `r`, they no longer differ. -/
theorem DiffersAt.setReg (h : DiffersAt s r v t u) (q : Reg) (w : Word) : DiffersAt s r v (t.setReg q w) (u.setReg q w) := by
  rcases h with rfl | ⟨rfl, hr⟩
  · exact .inl rfl
  by_cases hq : q = r
  · subst hq
    exact .inl (t.setReg_setReg_self q v w)
  · exact .inr ⟨t.setReg_comm hq v w, by rw [t.reg_setReg_of_ne w (Ne.symm hq), hr]⟩

/-- An update that commutes with writing a register and keeps all registers. -/
theorem DiffersAt.map (h : DiffersAt s r v t u) (f : State → State) (hset : ∀ t, f (t.setReg r v) = (f t).setReg r v)
    (hreg : ∀ t, (f t).reg r = t.reg r) : DiffersAt s r v (f t) (f u) := by
  rcases h with rfl | ⟨rfl, hr⟩
  · exact .inl rfl
  · exact .inr ⟨hset t, (hreg t).trans hr⟩

theorem DiffersAt.advance (h : DiffersAt s r v t u) : DiffersAt s r v t.advance u.advance :=
  h.map State.advance (fun _ => rfl) fun _ => rfl

theorem DiffersAt.jump (h : DiffersAt s r v t u) (w : Word) : DiffersAt s r v (t.jump w) (u.jump w) :=
  h.map (·.jump w) (fun _ => rfl) fun _ => rfl

theorem DiffersAt.setFlag (h : DiffersAt s r v t u) (f : Bool) : DiffersAt s r v (t.setFlag f) (u.setFlag f) :=
  h.map (·.setFlag f) (fun _ => rfl) fun _ => rfl

theorem DiffersAt.setStack (h : DiffersAt s r v t u) (l : List Word) : DiffersAt s r v (t.setStack l) (u.setStack l) :=
  h.map (·.setStack l) (fun _ => rfl) fun _ => rfl

theorem DiffersAt.setMem (h : DiffersAt s r v t u) (m : Memory) : DiffersAt s r v (t.setMem m) (u.setMem m) :=
  h.map (·.setMem m) (fun _ => rfl) fun _ => rfl

theorem DiffersAt.setStatus (h : DiffersAt s r v t u) (st : Status) : DiffersAt s r v (t.setStatus st) (u.setStatus st) :=
  h.map (·.setStatus st) (fun _ => rfl) fun _ => rfl

theorem DiffersAt.reg_eq (h : DiffersAt s r v t u) {q : Reg} (hq : q ≠ r) : u.reg q = t.reg q := by
  rcases h with rfl | ⟨rfl, -⟩
  · rfl
  · exact t.reg_setReg_of_ne v hq

/-- What the difference comes to. -/
theorem DiffersAt.spec (h : DiffersAt s r v t u) :
    (∀ q, q ≠ r → u.reg q = t.reg q) ∧ (u.reg r = t.reg r ∨ (u.reg r = v ∧ t.reg r = s.reg r)) ∧
      u.pc = t.pc ∧ ControlSame t u ∧ MemSame t u := by
  refine ⟨fun q hq => h.reg_eq hq, ?_⟩
  rcases h with rfl | ⟨rfl, hr⟩
  · exact ⟨.inl rfl, rfl, ⟨rfl, rfl, rfl, rfl, rfl, rfl, rfl⟩, fun _ => rfl⟩
  · exact ⟨.inr ⟨t.reg_setReg_self r v, hr⟩, rfl, ⟨rfl, rfl, rfl, rfl, rfl, rfl, rfl⟩, fun _ => rfl⟩

end

section

variable (s : State) {a b r : Reg} (v : Word)

/-- Taking the same fault in both states. -/
theorem differsAt_raise (c : FaultCause) (info : Word) :
    DiffersAt s r v (s.raise c info) ((s.setReg r v).raise c info) :=
  (DiffersAt.start s r v).map (·.raise c info) (fun _ => rfl) fun _ => rfl

theorem differsAt_branchIf (taken : Bool) (off : Int) :
    DiffersAt s r v (s.branchIf taken off) ((s.setReg r v).branchIf taken off) := by
  cases taken with
  | true => exact (DiffersAt.start s r v).jump _
  | false => exact (DiffersAt.start s r v).advance

theorem differsAt_writeResult (f : Word → Word → Word) (c : Reg) (ha : a ≠ r) (hb : b ≠ r) :
    DiffersAt s r v (s.writeResult f a b c) ((s.setReg r v).writeResult f a b c) := by
  have start := DiffersAt.start s r v
  unfold State.writeResult
  rw [start.reg_eq ha, start.reg_eq hb]
  exact (start.setReg c _).advance

theorem differsAt_exchange (c : Reg) (q : Word) (ha : a ≠ r) (hb : b ≠ r) :
    DiffersAt s r v ((s.setReg c q).exchange a b).advance (((s.setReg r v).setReg c q).exchange a b).advance := by
  have written := (DiffersAt.start s r v).setReg c q
  unfold State.exchange
  rw [written.reg_eq ha, written.reg_eq hb]
  exact ((written.setReg a _).setReg b _).advance

theorem differsAt_writeScan (f : Word → Option Nat) (b : Reg) (ha : a ≠ r) :
    DiffersAt s r v (s.writeScan f a b) ((s.setReg r v).writeScan f a b) := by
  have start := DiffersAt.start s r v
  unfold State.writeScan
  rw [start.reg_eq ha]
  exact ((start.setReg b _).setFlag _).advance

end

/-- Another value in a register an instruction does not read makes a difference in that register only (R23). -/
theorem exec_setReg {i : Instr} (s : State) {r : Reg} (v : Word) (hr : r ∉ readsOf i) :
    ∃ t u, exec i s = .next t ∧ exec i (s.setReg r v) = .next u ∧ DiffersAt s r v t u := by
  have start := DiffersAt.start s r v
  have unread : ∀ q ∈ readsOf i, q ≠ r := fun q hq e => hr (e ▸ hq)
  cases i with
  | add a b c | mul a b c | imul a b c | and a b c | xor a b c | nand a b c | cmpge a b c =>
    exact ⟨_, _, rfl, rfl, differsAt_writeResult s v _ c (unread a (by simp [readsOf])) (unread b (by simp [readsOf]))⟩
  | div a b c =>
    have ha := unread a (by simp [readsOf])
    have hb := unread b (by simp [readsOf])
    by_cases hzero : s.reg b = 0
    · exact ⟨_, _, exec_div_of_zero c hzero, exec_div_of_zero c ((start.reg_eq hb).trans hzero), differsAt_raise s v _ _⟩
    · exact ⟨_, _, exec_div_of_ne c hzero, exec_div_of_ne c (start.reg_eq hb ▸ hzero), differsAt_writeResult s v _ c ha hb⟩
  | xidiv a b c =>
    have ha := unread a (by simp [readsOf])
    have hb := unread b (by simp [readsOf])
    have hsame : divSFaults (s.setReg r v).cfg ((s.setReg r v).reg a) ((s.setReg r v).reg b) =
        divSFaults s.cfg (s.reg a) (s.reg b) := by
      rw [start.reg_eq ha, start.reg_eq hb, State.setReg_cfg]
    by_cases hf : divSFaults s.cfg (s.reg a) (s.reg b) = true
    · exact ⟨_, _, exec_xidiv_of_faults c hf, exec_xidiv_of_faults c (hsame.trans hf), differsAt_raise s v _ _⟩
    · refine ⟨_, _, exec_xidiv_of_not c hf, exec_xidiv_of_not c (hsame ▸ hf), ?_⟩
      rw [start.reg_eq ha, start.reg_eq hb]
      exact differsAt_exchange s v c _ ha hb
  | lw a b off =>
    have hea : (s.setReg r v).ea a off = s.ea a off := by
      rw [State.ea, State.ea, start.reg_eq (unread a (by simp [readsOf]))]
    by_cases hin : 0 ≤ s.ea a off ∧ s.ea a off < s.cfg.memWords
    · obtain ⟨w, hw⟩ := memRead_of_mem hin
      have hw' : (s.setReg r v).memRead ((s.setReg r v).ea a off) = some w := by rw [hea, State.memRead_setReg, hw]
      exact ⟨_, _, exec_lw_of_read hw, exec_lw_of_read hw', (start.setReg b w).advance⟩
    · refine ⟨_, _, exec_lw_of_out hin, exec_lw_of_out (hea ▸ hin), ?_⟩
      rw [hea]
      exact differsAt_raise s v _ _
  | sw a b off =>
    have hea : (s.setReg r v).ea a off = s.ea a off := by
      rw [State.ea, State.ea, start.reg_eq (unread a (by simp [readsOf]))]
    by_cases hin : 0 ≤ s.ea a off ∧ s.ea a off < s.cfg.memWords
    · refine ⟨_, _, exec_sw_of_write (memWrite_of_mem _ hin), exec_sw_of_write (memWrite_of_mem _ (hea ▸ hin)), ?_⟩
      rw [hea, start.reg_eq (unread b (by simp [readsOf]))]
      exact (start.setMem _).advance
    · refine ⟨_, _, exec_sw_of_out hin, exec_sw_of_out (hea ▸ hin), ?_⟩
      rw [hea]
      exact differsAt_raise s v _ _
  | beq a b off | jmae a b off | jmnae a b off =>
    refine ⟨_, _, rfl, rfl, ?_⟩
    rw [start.reg_eq (unread a (by simp [readsOf])), start.reg_eq (unread b (by simp [readsOf]))]
    exact differsAt_branchIf s v _ off
  | jne off => exact ⟨_, _, rfl, rfl, differsAt_branchIf s v _ off⟩
  | jarl a b =>
    have ha := start.reg_eq (unread a (by simp [readsOf]))
    have hb := start.reg_eq (unread b (by simp [readsOf]))
    have hsame : jarlEqual (s.setReg r v) a b = jarlEqual s a b := by simp only [jarlEqual, ha, hb, State.setReg_cfg]
    by_cases he : jarlEqual s a b = true
    · exact ⟨_, _, exec_jarl_of_equal he, exec_jarl_of_equal (hsame.trans he), (start.setReg a _).advance⟩
    · refine ⟨_, _, exec_jarl_of_not he, exec_jarl_of_not (hsame ▸ he), ?_⟩
      rw [ha]
      exact (start.setReg b _).jump _
  | halt => exact ⟨_, _, rfl, rfl, start.advance.setStatus .halted⟩
  | bsr a b | bsf a b => exact ⟨_, _, rfl, rfl, differsAt_writeScan s v _ b (unread a (by simp [readsOf]))⟩
  | push =>
    by_cases hfree : s.sp < 32
    · refine ⟨_, _, exec_push_of_lt hfree, exec_push_of_lt hfree, ?_⟩
      rw [start.reg_eq (unread 1 (by simp [readsOf])), State.setReg_stack]
      exact (start.setStack _).advance
    · exact ⟨_, _, exec_push_of_full (not_lt.1 hfree), exec_push_of_full (not_lt.1 hfree), differsAt_raise s v _ _⟩
  | pop =>
    cases hstack : s.stack with
    | nil =>
      have hempty : s.sp = 0 := congrArg List.length hstack
      exact ⟨_, _, exec_pop_of_empty hempty, exec_pop_of_empty hempty, differsAt_raise s v _ _⟩
    | cons w rest =>
      exact ⟨_, _, exec_pop_of_cons hstack, exec_pop_of_cons hstack, ((start.setStack rest).setReg 1 w).advance⟩

/-- Settles O32: the writes are read off `Effect`, the reads by running the instruction on both states. -/
theorem registerFootprint : Obligations.RegisterFootprint := by
  intro i s
  obtain ⟨t, hexec, heffect⟩ := exec_effect i s
  refine ⟨t, hexec, heffect.regsSame, fun r v hr => ?_⟩
  obtain ⟨t', u, hexec', hother, hdiff⟩ := exec_setReg s v hr
  obtain rfl : t' = t := Host.Outcome.next.inj (hexec'.symm.trans hexec)
  exact ⟨u, hother, hdiff.spec⟩

end Sys2Proof.Machine
end

section
/-! The step: what it fetches, when it faults, what it counts and what it writes (spec/00_scope.md section 6, spec/60_exceptions.md). -/

namespace Sys2Proof.Machine

/-! ## A step's next state -/

/-- A step that completes its instruction does not fault. -/
theorem Completed.tick_status_ne_faulted {i : Instr} {s t : State} (h : Completed i s t) (run : s.status = .running) :
    t.tick.status ≠ .faulted :=
  h.status_ne_faulted (by simp [run])

/-- Settles O34. -/
theorem stepRunsDecoded : Obligations.StepRunsDecoded := by
  intro s t w i run hread hdecode hexec
  have hstep : step s = .next t.count := by
    rw [step_of_fetch_ok run (State.fetch_eq_ok.2 ⟨w, hread, hdecode⟩), hexec, retire_next]
  refine ⟨fun hfault => ?_, fun hnot => ?_⟩
  · rw [hstep, State.count_of_faulted hfault]
  · rw [hstep, State.count_of_ne hnot]
    rfl

/-- Settles O37. -/
theorem runningCoreAlwaysSteps : Obligations.RunningCoreAlwaysSteps := by
  intro s run
  rcases step_cases run with ⟨c, info, -, hnext⟩ | ⟨i, t, -, -, -, hnext⟩
  · exact ⟨_, hnext⟩
  · exact ⟨_, hnext⟩

/-- Settles O36. -/
theorem noStepAfterTheEnd : Obligations.NoStepAfterTheEnd := by
  refine fun s => ⟨fun h => by simp [step, h], fun h => by simp [step, h], fun t hreach hs => ?_⟩
  induction hreach with
  | refl => rfl
  | tail t u _ last ih =>
    obtain rfl := ih
    exact absurd (running_of_step last) hs

/-- Settles O40. -/
theorem completedStepsAreCounted : Obligations.CompletedStepsAreCounted := by
  intro s t hstep
  rcases step_inv hstep with ⟨c, info, -, rfl⟩ | ⟨i, u, -, -, hu, rfl⟩
  · rw [if_pos (s.raise_status c info), State.raise_icount]
  · rw [if_neg (hu.tick_status_ne_faulted (running_of_step hstep)), State.tick_icount, hu.icount]

/-! ## Faults -/

/-- Settles O39. -/
theorem faultsArePrecise : Obligations.FaultsArePrecise := by
  intro s t hstep hfault
  rcases step_inv hstep with ⟨c, info, hc, rfl⟩ | ⟨i, u, -, -, hu, rfl⟩
  · exact ⟨faultedFrom_raise s c info, hc⟩
  · exact absurd hfault (hu.tick_status_ne_faulted (running_of_step hstep))

/-- A fetched word that is no instruction is a fault with the word (R206). -/
theorem step_of_rejected {s : State} {w : Word} (run : s.status = .running) (hread : s.memRead s.pc.toInt = some w)
    (hbad : w.extractLsb' 28 4 ≠ 0 ∨ ∀ m, s.cfg.opc.code m ≠ w.extractLsb' 23 5) :
    step s = .next (s.raise .malformedOpcode w) := by
  obtain ⟨e, hdecode⟩ := decode_rejects_iff.2 hbad
  refine step_of_fetch_error run ?_
  simp only [State.fetch, hread, hdecode]

/-- Settles O35. -/
theorem fetchFaults : Obligations.FetchFaults := fun s run =>
  ⟨fun hout => ⟨_, step_of_pc_out run hout, faultedFrom_raise s _ _⟩,
    fun _ hread hbad => ⟨_, step_of_rejected run hread hbad, faultedFrom_raise s _ _⟩⟩

/-- A step whose instruction faults ends with that fault. -/
theorem step_of_exec_raise {s : State} {i : Instr} {c : FaultCause} {info : Word} (run : s.status = .running)
    (hfetch : s.fetch = .ok i) (hexec : exec i s = .next (s.raise c info)) : step s = .next (s.raise c info) := by
  rw [step_of_fetch_ok run hfetch, hexec, retire_next, State.count_raise]

/-- Every condition of the table of R201 stops the step with its cause and value. -/
theorem step_of_raises {s : State} {c : FaultCause} {info : Word} (run : s.status = .running) (h : Raises s c info) :
    step s = .next (s.raise c info) := by
  cases h with
  | fetch out => exact step_of_pc_out run out
  | decode w read bad => exact step_of_rejected run read bad
  | div a b c i zero => exact step_of_exec_raise run i (exec_div_of_zero c zero)
  | xidivZero a b c i zero => exact step_of_exec_raise run i (exec_xidiv_of_faults c (divSFaults_iff.2 (.inl zero)))
  | xidivOverflow a b c i dividend divisor par =>
    exact step_of_exec_raise run i (exec_xidiv_of_faults c (divSFaults_iff.2 (.inr ⟨dividend, divisor, par⟩)))
  | load a b off i out => exact step_of_exec_raise run i (exec_lw_of_out out)
  | store a b off i out => exact step_of_exec_raise run i (exec_sw_of_out out)
  | push i full => exact step_of_exec_raise run i (exec_push_of_full full)
  | pop i empty => exact step_of_exec_raise run i (exec_pop_of_empty empty)

/-- An instruction that leaves a running core faulted met a condition of the table of R201. -/
theorem Effect.raises {i : Instr} {s t : State} (h : Effect s i t) (run : s.status = .running) (hfetch : s.fetch = .ok i)
    (hfault : t.status = .faulted) : Raises s t.faultCause t.faultInfo := by
  have running_ne : ∀ st : Status, st = s.status → st ≠ .faulted := by simp [run]
  cases h with
  | fault _ cause info why => exact why hfetch
  | branch _ taken off =>
    obtain ⟨-, hcontrol, -⟩ := branchIf_frame s taken off
    obtain ⟨-, -, -, hstatus, -⟩ := hcontrol
    exact absurd hfault (running_ne _ hstatus)
  | halt => cases hfault
  | result | quotient | load | store | link | jump | scan | push | pop => exact absurd hfault (running_ne _ rfl)

/-- A faulting step met a condition of the table of R201, whose cause and value it recorded. -/
theorem raises_of_step {s t : State} (hstep : step s = .next t) (hfault : t.status = .faulted) :
    Raises s t.faultCause t.faultInfo := by
  have run := running_of_step hstep
  rcases s.fetch_cases with ⟨hread, hfetch⟩ | ⟨w, e, hread, hdecode, hfetch⟩ | ⟨w, i, -, -, hfetch⟩
  · obtain rfl := Host.Outcome.next.inj ((step_of_fetch_error run hfetch).symm.trans hstep)
    exact .fetch (State.memRead_eq_none.1 hread)
  · obtain rfl := Host.Outcome.next.inj ((step_of_fetch_error run hfetch).symm.trans hstep)
    exact .decode w hread (decode_rejects_iff.1 ⟨e, hdecode⟩)
  · obtain ⟨u, hexec, heffect⟩ := exec_effect i s
    rw [step_of_fetch_ok run hfetch, hexec, retire_next] at hstep
    obtain rfl := Host.Outcome.next.inj hstep
    by_cases hu : u.status = .faulted
    · rw [State.count_of_faulted hu]
      exact heffect.raises run hfetch hu
    · rw [State.count_of_ne hu] at hfault
      exact absurd hfault hu

/-- Settles O38: a condition determines the step's next state, so it is unique, and each faulting step has one. -/
theorem stepFaultsExactly : Obligations.StepFaultsExactly := by
  refine fun s run => ⟨fun c info => ⟨fun h => ⟨_, step_of_raises run h, rfl, rfl, rfl⟩, ?_⟩, fun c info c' info' h h' => ?_⟩
  · rintro ⟨t, hstep, hfault, rfl, rfl⟩
    exact raises_of_step hstep hfault
  · have hsame : s.raise c info = s.raise c' info' :=
      Host.Outcome.next.inj ((step_of_raises run h).symm.trans (step_of_raises run h'))
    exact ⟨congrArg State.faultCause hsame, congrArg State.faultInfo hsame⟩

/-! ## Who writes what -/

theorem status_halted_iff {s t : State} (hstep : step s = .next t) : t.status = .halted ↔ s.fetch = .ok .halt := by
  have run := running_of_step hstep
  constructor
  · intro hhalted
    rcases step_inv hstep with ⟨c, info, -, rfl⟩ | ⟨i, u, hfetch, -, hu, rfl⟩
    · cases hhalted
    · rcases hu.status with hsame | ⟨rfl, -⟩
      · cases run.symm.trans (hsame.symm.trans hhalted)
      · exact hfetch
  · intro hfetch
    rw [step_of_fetch_ok run hfetch, exec_halt, retire_next] at hstep
    obtain rfl := Host.Outcome.next.inj hstep
    rfl

/-- Settles O41: each part of the state is unchanged by a fault, and by a completed instruction unless it is one that writes
it. -/
theorem whoWritesWhat : Obligations.WhoWritesWhat := by
  intro s t hstep
  rcases step_inv hstep with ⟨c, info, -, rfl⟩ | ⟨i, u, hfetch, -, hu, rfl⟩
  · exact ⟨absurd rfl, absurd rfl, absurd rfl, status_halted_iff hstep, fun _ => ⟨rfl, rfl, rfl⟩, rfl⟩
  · refine ⟨fun hflag => ?_, fun hstack => ?_, fun hmem => ?_, status_halted_iff hstep,
      fun hfault => absurd hfault (hu.tick_status_ne_faulted (running_of_step hstep)), hu.cfg⟩
    · obtain ⟨a, b, rfl | rfl⟩ := hu.flag.resolve_left hflag
      · exact ⟨a, b, .inl hfetch⟩
      · exact ⟨a, b, .inr hfetch⟩
    · rcases hu.stack.resolve_left hstack with ⟨rfl, -⟩ | ⟨rfl, -⟩
      · exact .inl hfetch
      · exact .inr hfetch
    · obtain ⟨a, b, off, rfl, -⟩ := hu.mem.resolve_left hmem
      exact ⟨a, b, off, hfetch⟩

end Sys2Proof.Machine
end

section
/-! Addresses: the sums of `pc` and the effective address do not wrap where they matter (spec/10_state.md R27, spec/20_memory.md R59,
decision D26). -/

namespace Sys2Proof.Machine

theorem memWords_le {c : Config} (h : c.memWordsLegal = true) : (c.memWords : Int) ≤ 2 ^ 31 - 2 ^ 15 := by
  simp only [Config.memWordsLegal, Bool.and_eq_true, decide_eq_true_eq] at h
  omega

theorem offset_bounds {off : Int} (h : offsetInRange off = true) : -16384 ≤ off ∧ off ≤ 16383 := by
  simpa [offsetInRange] using h

/-- The address after one that exists is an exact sum (R27). -/
theorem toInt_nextPc {s : State} (hlegal : s.cfg.memWordsLegal = true) (h0 : 0 ≤ s.pc.toInt)
    (h1 : s.pc.toInt < s.cfg.memWords) : (trunc32 (s.pc.toInt + 1)).toInt = s.pc.toInt + 1 := by
  have hmax := memWords_le hlegal
  exact toInt_trunc32 (by omega) (by omega)

/-- Settles O46. -/
theorem pcSumsDoNotWrap : Obligations.PcSumsDoNotWrap := by
  intro s off hlegal h0 h1 hoff
  have hmax := memWords_le hlegal
  obtain ⟨hlow, hhigh⟩ := offset_bounds hoff
  have htarget : (s.branchTarget off).toInt = s.pc.toInt + off + 1 := toInt_trunc32 (by omega) (by omega)
  exact ⟨toInt_nextPc hlegal h0 h1, htarget, by omega⟩

/-- The wrapped effective address is the exact one, reduced to the signed range. -/
theorem toInt_wrapped_ea (s : State) (a : Reg) {off : Int} (hoff : offsetInRange off = true) :
    (s.reg a + sext32 (offField off)).toInt = (s.ea a off).bmod (2 ^ 32) := by
  rw [BitVec.toInt_add, toInt_sext32, toInt_offField hoff, State.ea]

/-- Settles O47: where the sum wraps, the exact and the wrapped address both lie outside memory. -/
theorem wrappedAddressAgrees : Obligations.WrappedAddressAgrees := by
  intro s a off hlegal hoff
  have hmax := memWords_le hlegal
  obtain ⟨hlow, hhigh⟩ := offset_bounds hoff
  have hreg0 := BitVec.le_toInt (s.reg a)
  have hreg1 := BitVec.toInt_lt (x := s.reg a)
  have hea : s.ea a off = (s.reg a).toInt + off := rfl
  rw [State.inMemory_iff, State.inMemory_iff, toInt_wrapped_ea s a hoff]
  by_cases hexact : -2 ^ 31 ≤ s.ea a off ∧ s.ea a off < 2 ^ 31
  · rw [Int.bmod_eq_of_le (by omega) (by omega)]
    exact ⟨Iff.rfl, fun _ => rfl⟩
  · have hwraps : (s.ea a off).bmod (2 ^ 32) = s.ea a off - 2 ^ 32 ∨ (s.ea a off).bmod (2 ^ 32) = s.ea a off + 2 ^ 32 := by
      rw [Int.bmod_def]
      split <;> omega
    refine ⟨?_, ?_⟩ <;> omega

end Sys2Proof.Machine
end

section
/-! The memory interface: the transactions of a step, and a store that the next fetch sees (spec/20_memory.md sections 5 and 6). -/

namespace Sys2Proof.Machine

/-! ## Stores, as steps -/

/-- A step that runs a store inside memory. -/
theorem step_sw {s : State} {a b : Reg} {off : Int} (run : s.status = .running) (hfetch : s.fetch = .ok (.sw a b off))
    (hin : 0 ≤ s.ea a off ∧ s.ea a off < s.cfg.memWords) :
    step s = .next (s.setMem (s.mem.write (s.ea a off).toNat (s.reg b))).advance.tick := by
  rw [step_of_fetch_ok run hfetch, exec_sw_of_write (memWrite_of_mem _ hin), retire_next, State.count_of_ne]
  simp [run]

/-- Settles O44. -/
theorem storeIsSeenByNextFetch : Obligations.StoreIsSeenByNextFetch := by
  intro s t a b off hlegal hstep hfetch hnext hbound
  have run := running_of_step hstep
  obtain ⟨h0, h1⟩ := State.pc_in_memory hfetch
  have hin : 0 ≤ s.ea a off ∧ s.ea a off < s.cfg.memWords := ⟨by omega, hbound⟩
  obtain rfl := Host.Outcome.next.inj ((step_sw run hfetch hin).symm.trans hstep)
  have hread : (s.setMem (s.mem.write (s.ea a off).toNat (s.reg b))).advance.tick.memRead (trunc32 (s.pc.toInt + 1)).toInt =
      some (s.reg b) := by
    rw [toInt_nextPc hlegal h0 h1, ← hnext, State.memRead_tick, State.memRead_advance,
      State.memRead_memWrite (memWrite_of_mem _ hin), if_pos rfl]
  exact ⟨run, hread, fun i hdecode => State.fetch_eq_ok.2 ⟨_, hread, hdecode⟩⟩

/-! ## The transactions of a step -/

theorem mem_transactions {s : State} (run : s.status = .running) {x : Transaction} :
    x ∈ s.transactions ↔ x ∈ s.readTransaction s.pc.toInt ∨ ∃ i, s.fetch = .ok i ∧ x ∈ s.dataTransactions i := by
  rw [State.transactions_of_running run, List.mem_append]
  cases s.fetch <;> simp

theorem transactions_of_fetch_ok {s : State} {i : Instr} (run : s.status = .running) (h : s.fetch = .ok i) :
    s.transactions = s.readTransaction s.pc.toInt ++ s.dataTransactions i := by
  rw [State.transactions_of_running run, h]

theorem readTransaction_of_read {s : State} {a : Int} {v : Word} (h : s.memRead a = some v) :
    s.readTransaction a = [.read a.toNat v] := by
  simp only [State.readTransaction, h]

theorem writeTransaction_of_mem {s : State} {a : Int} (v : Word) (h : 0 ≤ a ∧ a < s.cfg.memWords) :
    s.writeTransaction a v = [.write a.toNat v] :=
  if_pos (State.inMemory_iff.2 h)

/-- An address outside memory issues no transaction (R60). -/
theorem no_transaction_of_out {s : State} {a : Int} (h : ¬(0 ≤ a ∧ a < s.cfg.memWords)) :
    s.readTransaction a = [] ∧ ∀ v, s.writeTransaction a v = [] :=
  ⟨by simp only [State.readTransaction, State.memRead_eq_none.2 h], fun _ => if_neg fun e => h (State.inMemory_iff.1 e)⟩

theorem length_readTransaction_le (s : State) (a : Int) : (s.readTransaction a).length ≤ 1 := by
  unfold State.readTransaction
  split <;> simp

/-- What a read of the interface returns is the word memory holds. -/
theorem memRead_of_mem_readTransaction {s : State} {a : Int} {n : Nat} {v : Word} (h : .read n v ∈ s.readTransaction a) :
    s.memRead n = some v := by
  obtain ⟨w, hread, hx⟩ := State.mem_readTransaction.1 h
  obtain ⟨rfl, rfl⟩ := Transaction.read.inj hx
  have h0 := (State.memRead_eq_some.1 hread).1.1
  rwa [Int.toNat_of_nonneg h0]

/-- A read among a step's transactions, be it the fetch or a load, returns the word memory holds. -/
theorem memRead_of_read_mem {s : State} (run : s.status = .running) {n : Nat} {v : Word} (h : .read n v ∈ s.transactions) :
    s.memRead n = some v := by
  rcases (mem_transactions run).1 h with hpc | ⟨i, -, hdata⟩
  · exact memRead_of_mem_readTransaction hpc
  · rcases s.dataTransactions_cases i with ⟨a, b, off, -, e⟩ | ⟨a, b, off, -, e⟩ | ⟨-, e⟩
    · exact memRead_of_mem_readTransaction (e ▸ hdata)
    · cases (State.mem_writeTransaction.1 (e ▸ hdata)).2
    · exact absurd (e ▸ hdata) List.not_mem_nil

/-- A write among a step's transactions is that of a store inside memory. -/
theorem sw_of_write_mem {s : State} (run : s.status = .running) {n : Nat} {v : Word} (h : .write n v ∈ s.transactions) :
    ∃ a b off, s.fetch = .ok (.sw a b off) ∧ (0 ≤ s.ea a off ∧ s.ea a off < s.cfg.memWords) ∧ (n : Int) = s.ea a off ∧
      v = s.reg b := by
  rcases (mem_transactions run).1 h with hpc | ⟨i, hfetch, hdata⟩
  · obtain ⟨w, -, hx⟩ := State.mem_readTransaction.1 hpc
    cases hx
  rcases s.dataTransactions_cases i with ⟨a, b, off, -, e⟩ | ⟨a, b, off, rfl, e⟩ | ⟨-, e⟩
  · obtain ⟨w, -, hx⟩ := State.mem_readTransaction.1 (e ▸ hdata)
    cases hx
  · obtain ⟨hmem, hx⟩ := State.mem_writeTransaction.1 (e ▸ hdata)
    obtain ⟨rfl, rfl⟩ := Transaction.write.inj hx
    have hin := State.inMemory_iff.1 hmem
    exact ⟨a, b, off, hfetch, hin, Int.toNat_of_nonneg hin.1, rfl⟩
  · exact absurd (e ▸ hdata) List.not_mem_nil

/-- After the step memory holds what its write transaction wrote. -/
theorem memRead_of_write_mem {s t : State} (hstep : step s = .next t) {n : Nat} {v : Word}
    (h : .write n v ∈ s.transactions) : t.memRead n = some v := by
  have run := running_of_step hstep
  obtain ⟨a, b, off, hfetch, hin, hn, rfl⟩ := sw_of_write_mem run h
  obtain rfl := Host.Outcome.next.inj ((step_sw run hfetch hin).symm.trans hstep)
  rw [State.memRead_tick, State.memRead_advance, State.memRead_memWrite (memWrite_of_mem _ hin), if_pos hn]

/-- A word of memory that a step changed is the one its write transaction names. -/
theorem write_mem_of_changed {s t : State} (hstep : step s = .next t) {n : Nat} (h : t.memRead n ≠ s.memRead n) :
    ∃ v, .write n v ∈ s.transactions := by
  have run := running_of_step hstep
  rcases step_inv hstep with ⟨c, info, -, rfl⟩ | ⟨i, u, hfetch, -, hu, rfl⟩
  · exact absurd (s.memRead_raise c info n) h
  rw [State.memRead_tick] at h
  rcases hu.mem with hsame | ⟨a, b, off, rfl, hin, hmem⟩
  · exact absurd (MemSame.of_eq hu.cfg hsame n) h
  have hread : u.memRead n = if (n : Int) = s.ea a off then some (s.reg b) else s.memRead n := by
    rw [← State.memRead_memWrite (memWrite_of_mem (s.reg b) hin)]
    exact MemSame.of_eq (s := s.setMem (s.mem.write (s.ea a off).toNat (s.reg b))) hu.cfg hmem n
  have hn : (n : Int) = s.ea a off := by
    by_contra hne
    exact h (hread.trans (if_neg hne))
  refine ⟨s.reg b, (mem_transactions run).2 (.inr ⟨_, hfetch, State.mem_writeTransaction.2 ⟨State.inMemory_iff.2 hin, ?_⟩⟩)⟩
  rw [← hn, Int.toNat_natCast]

/-- A load that completes has an address in memory. -/
theorem ea_in_memory_of_lw {s t : State} {a b : Reg} {off : Int} (h : exec (.lw a b off) s = .next t)
    (ht : t.status ≠ .faulted) : 0 ≤ s.ea a off ∧ s.ea a off < s.cfg.memWords := by
  by_contra hout
  obtain rfl := Host.Outcome.next.inj ((exec_lw_of_out hout).symm.trans h)
  exact ht rfl

/-- A store that completes has an address in memory. -/
theorem ea_in_memory_of_sw {s t : State} {a b : Reg} {off : Int} (h : exec (.sw a b off) s = .next t)
    (ht : t.status ≠ .faulted) : 0 ≤ s.ea a off ∧ s.ea a off < s.cfg.memWords := by
  by_contra hout
  obtain rfl := Host.Outcome.next.inj ((exec_sw_of_out hout).symm.trans h)
  exact ht rfl

/-- An instruction that faults issues no data transaction: the address of a faulting load or store is outside memory. -/
theorem dataTransactions_of_raise {s : State} {i : Instr} {c : FaultCause} {info : Word} (run : s.status = .running)
    (hexec : exec i s = .next (s.raise c info)) : s.dataTransactions i = [] := by
  have running_ne : ∀ {u : State}, exec i s = .next u → u.status = s.status → False := by
    intro u hu hstatus
    obtain rfl := Host.Outcome.next.inj (hexec.symm.trans hu)
    cases run.symm.trans hstatus.symm
  rcases s.dataTransactions_cases i with ⟨a, b, off, rfl, e⟩ | ⟨a, b, off, rfl, e⟩ | ⟨-, e⟩
  · rw [e]
    refine (no_transaction_of_out fun hin => ?_).1
    obtain ⟨v, hv⟩ := memRead_of_mem hin
    exact running_ne (exec_lw_of_read hv) rfl
  · rw [e]
    exact (no_transaction_of_out fun hin => running_ne (exec_sw_of_write (memWrite_of_mem _ hin)) rfl).2 _
  · exact e

/-- A faulting step issues at most its fetch. -/
theorem transactions_of_faulted {s t : State} (hstep : step s = .next t) (hfault : t.status = .faulted) :
    s.transactions = s.readTransaction s.pc.toInt := by
  have run := running_of_step hstep
  cases hfetch : s.fetch with
  | error e =>
    rw [State.transactions_of_running run, hfetch]
    exact List.append_nil _
  | ok i =>
    rcases exec_cases i s with ⟨c, info, -, hexec⟩ | ⟨u, hexec, hu⟩
    · rw [transactions_of_fetch_ok run hfetch, dataTransactions_of_raise run hexec, List.append_nil]
    · rw [step_of_fetch_ok run hfetch, hexec, retire_next] at hstep
      obtain rfl := Host.Outcome.next.inj hstep
      have hne : u.status ≠ .faulted := hu.status_ne_faulted (by simp [run])
      rw [State.count_of_ne hne] at hfault
      exact absurd hfault hne

/-- Settles O45. -/
theorem stepTransactions : Obligations.StepTransactions := by
  intro s t hstep
  have run := running_of_step hstep
  refine ⟨fun a v => memRead_of_read_mem run, fun a v => memRead_of_write_mem hstep, fun a => write_mem_of_changed hstep,
    fun hfault => ?faulted, fun hnot => ?completed⟩
  case faulted =>
    rw [transactions_of_faulted hstep hfault]
    exact ⟨rfl, length_readTransaction_le s _⟩
  case completed =>
    rcases step_inv hstep with ⟨c, info, -, rfl⟩ | ⟨i, u, hfetch, hexec, hu, rfl⟩
    · exact absurd rfl hnot
    obtain ⟨w, hread, -⟩ := State.fetch_eq_ok.1 hfetch
    have hall := transactions_of_fetch_ok run hfetch
    rw [readTransaction_of_read hread] at hall
    refine ⟨w, hread, fun a b off hlw => ?lw, fun a b off hsw => ?sw, fun hother => ?other⟩
    case lw =>
      obtain rfl := Except.ok.inj (hfetch.symm.trans hlw)
      have hin := ea_in_memory_of_lw hexec hnot
      obtain ⟨v, hv⟩ := memRead_of_mem hin
      exact ⟨v, hv, hin.1, hall.trans (congrArg (_ :: ·) (readTransaction_of_read hv))⟩
    case sw =>
      obtain rfl := Except.ok.inj (hfetch.symm.trans hsw)
      have hin := ea_in_memory_of_sw hexec hnot
      exact ⟨hin.1, hall.trans (congrArg (_ :: ·) (writeTransaction_of_mem _ hin))⟩
    case other =>
      rcases s.dataTransactions_cases i with ⟨a, b, off, rfl, -⟩ | ⟨a, b, off, rfl, -⟩ | ⟨-, e⟩
      · exact absurd hfetch (hother a b off).1
      · exact absurd hfetch (hother a b off).2
      · rw [hall, e, List.append_nil]

end Sys2Proof.Machine
end

section
/-! Bounded runs: how each ends, and that a larger bound changes no end (spec/70_reset_and_hazards.md section 2, R250). -/

namespace Sys2Proof.Machine

/-- A bounded run ends in a state the core reaches, in the outcome that state's `STATUS` gives. -/
theorem run_cases (n : Nat) (s : State) :
    ∃ t, Reaches s t ∧ ((run n s = .halted t ∧ t.status = .halted) ∨ (run n s = .faulted t ∧ t.status = .faulted) ∨
      (run n s = .outOfFuel t ∧ t.status = .running)) := by
  induction n generalizing s with
  | zero =>
    cases hs : s.status with
    | halted => exact ⟨s, .refl s, .inl ⟨run_of_halted hs 0, hs⟩⟩
    | faulted => exact ⟨s, .refl s, .inr (.inl ⟨run_of_faulted hs 0, hs⟩)⟩
    | running => exact ⟨s, .refl s, .inr (.inr ⟨run_zero hs, hs⟩)⟩
  | succ n ih =>
    cases hs : s.status with
    | halted => exact ⟨s, .refl s, .inl ⟨run_of_halted hs _, hs⟩⟩
    | faulted => exact ⟨s, .refl s, .inr (.inl ⟨run_of_faulted hs _, hs⟩)⟩
    | running =>
      obtain ⟨u, hstep⟩ := runningCoreAlwaysSteps s hs
      obtain ⟨t, hreach, hend⟩ := ih u
      exact ⟨t, hreach.head hstep, run_succ hstep n ▸ hend⟩

theorem reaches_of_run_halted {n : Nat} {s t : State} (h : run n s = .halted t) : Reaches s t ∧ t.status = .halted := by
  obtain ⟨u, hreach, ⟨hrun, hu⟩ | ⟨hrun, -⟩ | ⟨hrun, -⟩⟩ := run_cases n s
  · obtain rfl := RunEnd.halted.inj (hrun.symm.trans h)
    exact ⟨hreach, hu⟩
  · cases hrun.symm.trans h
  · cases hrun.symm.trans h

theorem reaches_of_run_faulted {n : Nat} {s t : State} (h : run n s = .faulted t) : Reaches s t ∧ t.status = .faulted := by
  obtain ⟨u, hreach, ⟨hrun, -⟩ | ⟨hrun, hu⟩ | ⟨hrun, -⟩⟩ := run_cases n s
  · cases hrun.symm.trans h
  · obtain rfl := RunEnd.faulted.inj (hrun.symm.trans h)
    exact ⟨hreach, hu⟩
  · cases hrun.symm.trans h

theorem reaches_of_run_outOfFuel {n : Nat} {s t : State} (h : run n s = .outOfFuel t) :
    t.status = .running ∧ Reaches s t := by
  obtain ⟨u, hreach, ⟨hrun, -⟩ | ⟨hrun, -⟩ | ⟨hrun, hu⟩⟩ := run_cases n s
  · cases hrun.symm.trans h
  · cases hrun.symm.trans h
  · obtain rfl := RunEnd.outOfFuel.inj (hrun.symm.trans h)
    exact ⟨hu, hreach⟩

theorem run_ne_stuck (n : Nat) (s t : State) : run n s ≠ .stuck t := by
  intro h
  obtain ⟨u, -, ⟨hrun, -⟩ | ⟨hrun, -⟩ | ⟨hrun, -⟩⟩ := run_cases n s <;> cases hrun.symm.trans h

/-- A run that has not used up its bound ends alike under every larger one. -/
theorem run_of_le {n m : Nat} (hle : n ≤ m) {s : State} (h : ∀ t, run n s ≠ .outOfFuel t) : run m s = run n s := by
  induction n generalizing m s with
  | zero =>
    cases hs : s.status with
    | halted => rw [run_of_halted hs, run_of_halted hs]
    | faulted => rw [run_of_faulted hs, run_of_faulted hs]
    | running => exact absurd (run_zero hs) (h s)
  | succ n ih =>
    obtain ⟨m, rfl⟩ : ∃ k, m = k + 1 := ⟨m - 1, by omega⟩
    cases hs : s.status with
    | halted => rw [run_of_halted hs, run_of_halted hs]
    | faulted => rw [run_of_faulted hs, run_of_faulted hs]
    | running =>
      obtain ⟨u, hstep⟩ := runningCoreAlwaysSteps s hs
      rw [run_succ hstep] at h ⊢
      rw [run_succ hstep, ih (by omega) h]

/-- Settles O48: a reached state is some number of steps away, and a run under that bound passes it. -/
theorem boundedRuns : Obligations.BoundedRuns := by
  refine fun s => ⟨fun n t => run_ne_stuck n s t, fun t => ⟨?halts, fun ⟨n, h⟩ => reaches_of_run_halted h⟩,
    fun t => ⟨?faults, fun ⟨n, h⟩ => reaches_of_run_faulted h⟩, fun n t => reaches_of_run_outOfFuel, ?haltedMono, ?faultedMono⟩
  case halts =>
    rintro ⟨hreach, hhalted⟩
    obtain ⟨k, hk⟩ := hreach.run_add
    exact ⟨k + 0, (hk 0).trans (run_of_halted hhalted 0)⟩
  case faults =>
    rintro ⟨hreach, hfaulted⟩
    obtain ⟨k, hk⟩ := hreach.run_add
    exact ⟨k + 0, (hk 0).trans (run_of_faulted hfaulted 0)⟩
  case haltedMono =>
    intro n m t hle h
    rw [run_of_le hle (by simp [h]), h]
  case faultedMono =>
    intro n m t hle h
    rw [run_of_le hle (by simp [h]), h]

end Sys2Proof.Machine
end

section
/-! The assembler: resolved labels and the length of a program (spec/30_encoding.md section 6). -/

namespace Sys2Proof.Machine

open Asm

/-- What a label resolves to: its offset, which the field can hold (R103, R104). -/
theorem resolve_sym {labels : Labels} {m : Mnemonic} {name : Text} {target here : Nat} {off : Int}
    (haddr : labels.address name = .ok target) (h : resolve labels m here (.sym name) = .ok off) :
    off = labelOffset m target here ∧ offsetInRange off = true := by
  simp only [resolve, haddr, Except.map, bind, Except.bind] at h
  split at h
  · next hrange =>
    obtain rfl := Except.ok.inj h
    exact ⟨rfl, hrange⟩
  · cases h

/-- Settles O50. -/
theorem labelOffsetReachesLabel : Obligations.LabelOffsetReachesLabel := by
  intro labels m name target here off s haddr hresolve
  obtain ⟨hoff, hrange⟩ := resolve_sym haddr hresolve
  refine ⟨hrange, fun hm hpc => ?_, fun hm => ?_⟩
  · have hrelative : off = (target : Int) - here - 1 := by rcases hm with rfl | rfl | rfl | rfl <;> exact hoff
    rw [State.branchTarget, hpc, hrelative]
    congr 1
    omega
  · rcases hm with rfl | rfl <;> exact hoff

/-- What it takes for a sequence of two computations to succeed. -/
theorem ok_of_bind_eq_ok {α β : Type} {x : Except AsmError α} {f : α → Except AsmError β} {y : β} (h : x >>= f = .ok y) :
    ∃ v, x = .ok v ∧ f v = .ok y := by
  cases x with
  | error e => cases h
  | ok v => exact ⟨v, rfl, h⟩

/-- Parsing gives one line for every line of the source (R97). -/
theorem length_parseAll {source : List Text} {lines : List Line} (h : parseAll source = .ok lines) :
    lines.length = source.length := by
  induction source generalizing lines with
  | nil =>
    obtain rfl := Except.ok.inj h
    rfl
  | cons t ts ih =>
    obtain ⟨l, -, htail⟩ := ok_of_bind_eq_ok h
    obtain ⟨ls, hls, hcons⟩ := ok_of_bind_eq_ok htail
    obtain rfl := Except.ok.inj hcons
    rw [List.length_cons, List.length_cons, ih hls]

/-- Emission gives one word for every line. -/
theorem length_emitAll {o : OpcMap} {labels : Labels} {here : Nat} {lines : List Line} {words : List Word}
    (h : emitAll o labels here lines = .ok words) : words.length = lines.length := by
  induction lines generalizing here words with
  | nil =>
    obtain rfl := Except.ok.inj h
    rfl
  | cons l ls ih =>
    obtain ⟨w, -, htail⟩ := ok_of_bind_eq_ok h
    obtain ⟨ws, hws, hcons⟩ := ok_of_bind_eq_ok htail
    obtain rfl := Except.ok.inj hcons
    rw [List.length_cons, List.length_cons, ih hws]

/-- The passes of an assembly that succeeds, and the capacity check before them (R106 to R108). -/
theorem assemble_eq_ok {c : Config} {source : List Text} {words : List Word} (h : assemble c source = .ok words) :
    source.length ≤ c.memWords ∧ ∃ lines labels, parseAll source = .ok lines ∧ emitAll c.opc labels 0 lines = .ok words := by
  unfold assemble at h
  split at h
  · cases h
  next hfits =>
  obtain ⟨lines, hlines, hrest⟩ := ok_of_bind_eq_ok h
  split at hrest
  · cases hrest
  obtain ⟨labels, -, hemit⟩ := ok_of_bind_eq_ok hrest
  exact ⟨not_lt.1 hfits, lines, labels, hlines, hemit⟩

/-- Settles O51. -/
theorem assembledProgramFits : Obligations.AssembledProgramFits := by
  intro c source words h
  obtain ⟨hfits, lines, labels, hlines, hemit⟩ := assemble_eq_ok h
  have hlen : words.length = source.length := (length_emitAll hemit).trans (length_parseAll hlines)
  exact ⟨hlen, _, launch_of_le (hlen ▸ hfits)⟩

end Sys2Proof.Machine
end

section
/-! The program file: what a readable one holds, what is refused, and that reading undoes writing (spec/30_encoding.md R95). -/

namespace Sys2Proof.Machine

open Asm

/-! ## Lines -/

/-- A line reads as a word exactly when it is the decimal integer of that word's signed value. -/
theorem lineWord_eq_some {line : Text} {w : Word} : lineWord line = some w ↔ parseInt line = some w.toInt := by
  unfold lineWord
  cases hline : parseInt line with
  | none => simp
  | some n =>
    have hlo := BitVec.le_toInt w
    have hhi := BitVec.toInt_lt (x := w)
    by_cases hrange : -2 ^ 31 ≤ n ∧ n ≤ 2 ^ 31 - 1
    · simp only [if_pos hrange, Option.some.injEq]
      constructor
      · rintro rfl
        exact (toInt_trunc32 hrange.1 (by omega)).symm
      · rintro rfl
        exact trunc32_toInt w
    · simp only [if_neg hrange, reduceCtorEq, Option.some.injEq, false_iff]
      omega

/-- A line that is no integer of the signed range is refused. -/
theorem lineWord_eq_none {line : Text} (h : ∀ n, parseInt line = some n → ¬(-2 ^ 31 ≤ n ∧ n ≤ 2 ^ 31 - 1)) :
    lineWord line = none := by
  cases hw : lineWord line with
  | none => rfl
  | some w =>
    have hlo := BitVec.le_toInt w
    have hhi := BitVec.toInt_lt (x := w)
    exact absurd ⟨by omega, by omega⟩ (h _ (lineWord_eq_some.1 hw))

/-- One line that is refused refuses the file. -/
theorem fileWords_eq_none {lines : List Text} {line : Text} (hmem : line ∈ lines) (hline : lineWord line = none) :
    fileWords lines = none := by
  induction lines with
  | nil => exact absurd hmem List.not_mem_nil
  | cons l rest ih =>
    by_contra hsome
    obtain ⟨words, hwords⟩ := Option.ne_none_iff_exists'.1 hsome
    obtain ⟨w, ws, hl, hrest, -⟩ := fileWords_cons.1 hwords
    rcases List.mem_cons.1 hmem with rfl | hin
    · cases hline.symm.trans hl
    · cases (ih hin).symm.trans hrest

/-- The lines of a readable file are the integers of its words. -/
theorem parseInt_of_fileWords {lines : List Text} {words : List Word} (h : fileWords lines = some words) :
    lines.map parseInt = words.map fun w => some w.toInt := by
  induction lines generalizing words with
  | nil =>
    obtain rfl := Option.some.inj h
    rfl
  | cons l rest ih =>
    obtain ⟨w, ws, hl, hrest, rfl⟩ := fileWords_cons.1 h
    rw [List.map_cons, List.map_cons, lineWord_eq_some.1 hl, ih hrest]

/-! ## Reading -/

theorem readFile_of_ne {text : Text} (h : text ≠ []) : readFile text = fileWords (cut '\n' text) := by
  cases text with
  | nil => exact absurd rfl h
  | cons c cs => rfl

/-- A newline at the end is an empty line more, which is no integer. -/
theorem readFile_append_newline (text : Text) : readFile (text ++ ['\n']) = none := by
  rw [readFile_of_ne (by simp), cut_append_sep]
  exact fileWords_eq_none (line := []) (by simp) rfl

/-- Settles O53. -/
theorem programFileIsChecked : Obligations.ProgramFileIsChecked := by
  refine fun text => ⟨readFile_append_newline text, fun words hread hne => ?_, fun line hmem hne hbad => ?_⟩
  · rw [readFile_of_ne hne] at hread
    exact parseInt_of_fileWords hread
  · rw [readFile_of_ne hne]
    exact fileWords_eq_none hmem (lineWord_eq_none hbad)

/-! ## Writing, then reading -/

/-- The text has one line per word. -/
theorem cut_fileText {words : List Word} (h : words ≠ []) : cut '\n' (fileText words) = fileLines words := by
  refine cut_join (by simpa [fileLines] using h) fun l hl => ?_
  obtain ⟨w, -, rfl⟩ := List.mem_map.1 hl
  exact newline_notMem_showInt _

theorem fileText_ne_nil {words : List Word} (h : words ≠ []) : fileText words ≠ [] := by
  intro hnil
  have hcut := cut_fileText h
  rw [hnil] at hcut
  have hread := fileWords_fileLines words
  rw [← hcut] at hread
  cases hread

/-- Reading undoes writing. -/
theorem readFile_fileText (words : List Word) : readFile (fileText words) = some words := by
  by_cases h : words = []
  · subst h
    rfl
  · rw [readFile_of_ne (fileText_ne_nil h), cut_fileText h, fileWords_fileLines]

/-- A text that ended in a newline would be refused, and this one is read. -/
theorem getLast?_fileText (words : List Word) : (fileText words).getLast? ≠ some '\n' := by
  intro hlast
  have hsplit : fileText words = (fileText words).dropLast ++ ['\n'] := (List.dropLast_append_getLast? _ hlast).symm
  have hread := readFile_fileText words
  rw [hsplit, readFile_append_newline] at hread
  cases hread

/-- Settles O52. -/
theorem programFileRoundTrip : Obligations.ProgramFileRoundTrip := by
  refine fun c words => ⟨cut_fileText, parseInt_of_fileWords (fileWords_fileLines words), getLast?_fileText words,
    readFile_fileText words, fun hfits => ?_⟩
  have hlaunch := launch_of_le hfits
  refine ⟨_, ?_, fun i hi => memRead_launch_program hlaunch hi⟩
  rw [State.launchFile, readFile_fileText, Option.bind_some, hlaunch]

end Sys2Proof.Machine
end
